-- ==== Sys2Proof/Word.lean ====
section
/-! DEFINITION. The word types of the block (spec/00_scope.md section 5: bits are numbered from 0, the least significant). -/

namespace Sys2Proof

/-- A pool slot, 8 bits (R8, R14). -/
abbrev Byte := BitVec 8

/-- `LFSR`, `ACC` and `rdata`, 32 bits (R18, R24, R50). -/
abbrev Word := BitVec 32

/-- A one-bit value: a draw, a tap, the result of a fold (R12, R64). -/
abbrev Bit := Bool

end Sys2Proof
end

