-- ==== Sys2Proof/Config.lean ====
section
/-! DEFINITION. What an implementation fixes (`N` and `LFSR_SEED`, R6 and R7) and the free values.
The constants without a body cannot be evaluated: a proof holds whatever they are. -/

namespace Sys2Proof

/-- The two build-time parameters of the block (R25). The shared operations take them as an argument, so that the
spec's test vectors, which name their own `N` and seed, can be run on them. -/
structure Params where
  /-- `N`, the pool capacity in bytes (R6). -/
  poolSize : Nat
  /-- `LFSR_SEED` (R7). -/
  lfsrSeed : Word
  deriving DecidableEq, Repr

/-- `N - 2`. The spec gives no value (R6, U1, log entry 1), so this has no body. -/
opaque Config.poolSizeLessTwo : Nat

/-- `N`, any natural number with `N >= 2` (R6, D2). -/
def Config.poolSize : Nat := Config.poolSizeLessTwo + 2

/-- `LFSR_SEED - 1`. The spec gives no value (R7, U2, log entry 2), so this has no body. -/
opaque Config.seedLessOne : Fin 4294967295

/-- `LFSR_SEED`, any non-zero 32-bit value (R7, D3). -/
def Config.lfsrSeed : Word := BitVec.ofNat 32 (Config.seedLessOne.val + 1)

/-- The parameters of the machine that `exec` and `step` run. -/
def Config.params : Params := { poolSize := Config.poolSize, lfsrSeed := Config.lfsrSeed }

/-- The value of the `ctr0` wire at a micro-step that no listed input accompanies: a draw under no law (R12, U3, log
entry 14). The argument counts such draws. -/
opaque Config.freeDraw : Nat → Bit

end Sys2Proof
end

