-- ==== Sys2Proof/Syntax.lean ====
section
/-! DEFINITION. The events of the block (the rows of spec/opcode_table.json, R52), the words that select them (R51, R53),
and the inputs the agents present (R59). -/

namespace Sys2Proof

/-- The four formats of R51 and R53. -/
inductive Format where
  /-- The `reset` input, 1 bit (R49, R53). -/
  | rst
  /-- The command port, 3 bits (R48, R51). -/
  | cmd
  /-- The tick and counter inputs `tick, ctr0`, 2 bits (R49, R53). -/
  | evt
  /-- No input word: the 2-bit code of `XSTATE` (R53, R56). -/
  | xst
  deriving DecidableEq, Repr

/-- One constructor per row of spec/opcode_table.json (R52). The only operand is a draw (R57). -/
inductive Instr where
  /-- RESET (R114). -/
  | reset
  /-- NOP (R96). -/
  | nop
  /-- INIT (R93). -/
  | init
  /-- NEXTBYTE (R82). -/
  | nextByte
  /-- NEXTINT (R83). -/
  | nextInt
  /-- NEXTLONG (R84). -/
  | nextLong
  /-- The reserved command code 101 (R55). -/
  | reserved5
  /-- The reserved command code 110 (R55). -/
  | reserved6
  /-- The reserved command code 111 (R55). -/
  | reserved7
  /-- TICK c (R61). -/
  | tick (c : Bit)
  /-- POLL (R76). -/
  | poll
  /-- ENTER (R77). -/
  | enter
  /-- REMOVE c (R78 to R81): `c` is the draw of the fold it runs when a tick is pending (R53, R59). -/
  | remove (c : Bit)
  deriving DecidableEq, Repr

/-- The format column of R52. -/
def Instr.format : Instr → Format
  | .reset => .rst
  | .nop => .cmd
  | .init => .cmd
  | .nextByte => .cmd
  | .nextInt => .cmd
  | .nextLong => .cmd
  | .reserved5 => .cmd
  | .reserved6 => .cmd
  | .reserved7 => .cmd
  | .tick _ => .evt
  | .poll => .xst
  | .enter => .xst
  | .remove _ => .xst

/-- A word that selects an event, at the exact width of its format (R51, R53). -/
inductive EventWord where
  /-- The `reset` input. -/
  | rst (w : BitVec 1)
  /-- `cmd[2:0]`. -/
  | cmd (w : BitVec 3)
  /-- The pair tick, ctr0. -/
  | evt (w : BitVec 2)
  /-- The code of `XSTATE`, with the value of the `ctr0` wire at that moment (R49). -/
  | xst (w : BitVec 2) (ctr0 : Bit)
  deriving DecidableEq, Repr

/-- The format of a word. -/
def EventWord.format : EventWord → Format
  | .rst _ => .rst
  | .cmd _ => .cmd
  | .evt _ => .evt
  | .xst _ _ => .xst

/-- What an agent presents at one event (R59): a word on a port, or a micro-step, which has no input word (written `-`)
and comes with the value of the `ctr0` wire. -/
inductive Input where
  /-- A word on the `reset` input, from the host. -/
  | rst (w : BitVec 1)
  /-- A word on the command port, from the consumer. -/
  | cmd (w : BitVec 3)
  /-- A word on the event input, from the tick source and the counter. -/
  | evt (w : BitVec 2)
  /-- The consumer takes the micro-step its phase enables, if any (R56). -/
  | micro (ctr0 : Bit)
  deriving DecidableEq, Repr

end Sys2Proof
end

