-- ==== Sys2Proof/WellFormed.lean ====
section
/-! DEFINITION. The checks on an event, an input and a program that need no state: the consumer's and the host's duties of
R131. The machine itself gives every event its hardware meaning; these checks are where a program that breaks a duty is
refused (R55, R115, log entry 6). -/

namespace Sys2Proof

/-- Operands always fit (their type is their width), so the one check on an event is R55: "A model should refuse a program
that issues one" of the reserved codes. -/
def Instr.wf : Instr → Bool
  | .reserved5 => false
  | .reserved6 => false
  | .reserved7 => false
  | .reset => true
  | .nop => true
  | .init => true
  | .nextByte => true
  | .nextInt => true
  | .nextLong => true
  | .tick _ => true
  | .poll => true
  | .enter => true
  | .remove _ => true

/-- An input a program may present: no reserved command code (R55, R131). -/
def Input.wf : Input → Bool
  | .cmd w => decide (w.toNat < 5)
  | .rst _ => true
  | .evt _ => true
  | .micro _ => true

/-- A program: its inputs are well formed and the first is RESET ("every execution starts with RESET", R115). -/
def wfProgram : List Input → Bool
  | [] => false
  | i :: rest => decide (i = .rst 1#1) && rest.all Input.wf

end Sys2Proof
end

