-- ==== Sys2Proof/Decode.lean ====
section
/-! DEFINITION. The decoder of R52, the encoder written from the same table, and the words of spec/opcode_table.json. -/

namespace Sys2Proof

/-- Why a word selects no event. None of these is an error of the block: nothing occurs (R53, R56). -/
inductive Reject where
  /-- The `reset` input is 0. -/
  | resetNotAsserted
  /-- The event word is `0x`: "no event" (R53). -/
  | noTick
  /-- `XSTATE = IDLE` enables no micro-step (R56). -/
  | noMicroStep
  deriving DecidableEq, Repr

/-- Format RST: "the 1-bit word `1` on `reset`" (R53). -/
def decodeRst (w : BitVec 1) : Except Reject Instr :=
  match w.getLsbD 0 with
  | true => .ok .reset
  | false => .error .resetNotAsserted

/-- Format CMD (R51, R52), bits 2, 1, 0. Total: "every 3-bit value is one of NOP, INIT, NEXTBYTE, NEXTINT, NEXTLONG or
reserved" (R60). -/
def decodeCmd (w : BitVec 3) : Except Reject Instr :=
  match w.getLsbD 2, w.getLsbD 1, w.getLsbD 0 with
  | false, false, false => .ok .nop
  | false, false, true => .ok .init
  | false, true, false => .ok .nextByte
  | false, true, true => .ok .nextInt
  | true, false, false => .ok .nextLong
  | true, false, true => .ok .reserved5
  | true, true, false => .ok .reserved6
  | true, true, true => .ok .reserved7

/-- Format EVT (R53): bit 1 is `tick`, bit 0 the draw. -/
def decodeEvt (w : BitVec 2) : Except Reject Instr :=
  match w.getLsbD 1 with
  | true => .ok (.tick (w.getLsbD 0))
  | false => .error .noTick

/-- Format XST (R52, R56): the code of `XSTATE`, bits 1 and 0. -/
def decodeXst (w : BitVec 2) (ctr0 : Bit) : Except Reject Instr :=
  match w.getLsbD 1, w.getLsbD 0 with
  | false, false => .error .noMicroStep
  | false, true => .ok .poll
  | true, false => .ok .enter
  | true, true => .ok (.remove ctr0)

/-- The event a word selects, on its own port. -/
def decode : EventWord → Except Reject Instr
  | .rst w => decodeRst w
  | .cmd w => decodeCmd w
  | .evt w => decodeEvt w
  | .xst w ctr0 => decodeXst w ctr0

/-- The encoding column of R52. -/
def encode : Instr → EventWord
  | .reset => .rst 0b1#1
  | .nop => .cmd 0b000#3
  | .init => .cmd 0b001#3
  | .nextByte => .cmd 0b010#3
  | .nextInt => .cmd 0b011#3
  | .nextLong => .cmd 0b100#3
  | .reserved5 => .cmd 0b101#3
  | .reserved6 => .cmd 0b110#3
  | .reserved7 => .cmd 0b111#3
  | .tick c => .evt (0b1#1 ++ BitVec.ofBool c)
  | .poll => .xst 0b01#2 false
  | .enter => .xst 0b10#2 false
  | .remove c => .xst 0b11#2 c

/-- The word of a row of spec/opcode_table.json. The table's rows are words of FOUR ports, and a number alone does not say
which: the width selects the port (log entry 12). One bit is the `reset` input; two bits are the event word where bit 1
(`tick`) is set and the code of `XSTATE` where it is not; every other width is the command port. -/
def tableWord (nbits w : Nat) : Option EventWord :=
  if nbits = 1 then
    if w < 2 then some (.rst (BitVec.ofNat 1 w)) else none
  else if nbits = 2 then
    if w < 2 then some (.xst (BitVec.ofNat 2 w) false)
    else if w < 4 then some (.evt (BitVec.ofNat 2 w)) else none
  else
    if w < 8 then some (.cmd (BitVec.ofNat 3 w)) else none

/-- The event the decoder reads from the word of a table row; none where it rejects. -/
def decodeTableWord (nbits w : Nat) : Option Instr :=
  match tableWord nbits w with
  | none => none
  | some e =>
    match decode e with
    | .ok i => some i
    | .error _ => none

end Sys2Proof
end

