-- ==== Sys2Proof/Machine/State.lean ====
section
/-! DEFINITION. The state of the block (R13), the reasons a step can stop, and the state after RESET (R29). -/

namespace Sys2Proof.Machine

/-- The phases of the Extractor (R21). -/
inductive XState where
  /-- No command in progress. -/
  | idle
  /-- In the busy-wait of `nextByte()`. -/
  | wait
  /-- The check has seen a ready byte; the section is not yet entered. -/
  | grant
  /-- Inside the section that suspends the tick. -/
  | crit
  deriving DecidableEq, Repr

/-- The pool index space (R31): the slots whose value is not `Memory.unlisted`, addresses strictly rising
(`Memory.wf` of Ops.lean is that form). -/
abbrev Memory := List Host.Cell

/-- What a slot that is not listed reads as: the reset contents of the pool (R29, R114). -/
def Memory.unlisted : Byte := 0x00#8

/-- Reasons the machine stops with a fault. The block itself raises none (R98). -/
inductive Fault where
  /-- Raised by FOLD and by REMOVE when `BYTE_CUR` is not below `N`: the address space is `0 .. N-1` (R31). Invariant I1
  (R28) excludes it, so it is safe (log entry 8). -/
  | poolIndexOutOfRange
  deriving DecidableEq, Repr

/-- Reasons the machine gives an event no meaning. -/
inductive Refusal where
  /-- Raised by an arm of `exec` that has no meaning yet; none is left. Safe. -/
  | notModelled (mnemonic : String)
  /-- Raised by POLL, ENTER and REMOVE when `XSTATE` does not enable them: "Which one is enabled is decided by `XSTATE`
  alone" (R56), so the event does not exist. `step` never asks for one. Safe (log entry 7). -/
  | microStepNotEnabled
  /-- Raised by `move` of Environment.lean, never by `step`, when the environment breaks a duty of R131 (a command while
  busy, a reserved code, an extraction before INIT, a micro-step in IDLE): "a model has no move for their violation, or
  refuses it". Safe (log entry 5). -/
  | dutyBroken
  deriving DecidableEq, Repr

/-- The complete state of the block (R13), its result port (R50), and the outside world as plain data. -/
structure State where
  /-- `POOL[0..N-1]` (R14). -/
  pool : Memory
  /-- `BYTE_CUR`, `0 .. N-1` (R15). A number: its width follows `N` (D19, log entry 9). -/
  byteCur : Nat
  /-- `BIT_CUR`, 3 bits (R16). -/
  bitCur : BitVec 3
  /-- `LFSR`, 32 bits (R18). -/
  lfsr : Word
  /-- `ARMED` (R19). -/
  armed : Bool
  /-- `TICK_PEND` (R20). -/
  tickPend : Bool
  /-- `XSTATE` (R21). -/
  xstate : XState
  /-- `REMAIN`, 3 bits (R23). -/
  remain : BitVec 3
  /-- `ACC`, 32 bits (R24). -/
  acc : Word
  /-- The result port (R50): `some v` when the event just run emits RESULT(v), `none` when `rvalid` is not asserted. -/
  result : Option Word
  /-- The model's own: what the agents will present, oldest first (R59, R131, log entry 3). -/
  inputs : List Input
  /-- The model's own: how many free draws have been taken (log entry 14). -/
  drawCount : Nat
  deriving DecidableEq, Repr

/-- The state right after the power-on RESET (R29, R114), with nothing presented. -/
def State.reset : State where
  pool := []
  byteCur := 0
  bitCur := 0#3
  lfsr := Config.lfsrSeed
  armed := false
  tickPend := false
  xstate := .idle
  remain := 0#3
  acc := 0x00000000#32
  result := none
  inputs := []
  drawCount := 0

end Sys2Proof.Machine
end

