-- ==== Sys2Proof/Machine/Flags.lean ====
section
/-! DEFINITION. The derived status of the block: none of these is a register (R17, R22, R48). -/

namespace Sys2Proof.Machine

/-- `busy = (XSTATE != IDLE)` (R48). -/
def State.busy (s : State) : Bool := decide (s.xstate ≠ .idle)

/-- `MASK`: the tick is suspended exactly while `XSTATE = CRIT` (R22, R103). -/
def State.mask (s : State) : Bool := decide (s.xstate = .crit)

/-- The ready count: "byte cursor value itself *is* the ready count" (R17). -/
def State.readyCount (s : State) : Nat := s.byteCur

/-- The condition the Extractor waits for, `BYTE_CUR >= 1` (R17, R76). -/
def State.ready (s : State) : Bool := decide (1 ≤ s.readyCount)

/-- What becomes of a TICK (R61, R102, R103). -/
inductive TickFate where
  /-- `ARMED = 0`: not held, no trace. -/
  | ignored
  /-- Masked: held in `TICK_PEND`. -/
  | held
  /-- Served at once. -/
  | folds
  deriving DecidableEq, Repr

/-- The three arms of R61, in its order. -/
def State.tickFate (s : State) : TickFate :=
  if s.armed = false then .ignored
  else if s.mask = true then .held
  else .folds

end Sys2Proof.Machine
end

