-- ==== Sys2Proof/Machine/Operands.lean ====
section
/-! DEFINITION. Where an event and its operand come from: the code of `XSTATE`, the word an input presents, and the input
the next step takes (R49, R53, R56, R59). -/

namespace Sys2Proof.Machine

/-- The codes of R21 and R52: IDLE=00, WAIT=01, GRANT=10, CRIT=11. -/
def XState.code : XState → BitVec 2
  | .idle => 0b00#2
  | .wait => 0b01#2
  | .grant => 0b10#2
  | .crit => 0b11#2

/-- The phase with a given code. -/
def XState.ofCode (w : BitVec 2) : XState :=
  match w.getLsbD 1, w.getLsbD 0 with
  | false, false => .idle
  | false, true => .wait
  | true, false => .grant
  | true, true => .crit

/-- The word an input presents. A micro-step is selected by the phase, not by the consumer (R56). -/
def inputWord (x : XState) : Input → EventWord
  | .rst w => .rst w
  | .cmd w => .cmd w
  | .evt w => .evt w
  | .micro ctr0 => .xst x.code ctr0

/-- The first input has been taken; the strobe of the event before is over ("`rvalid` asserted for that one event",
R50). -/
def State.afterInput (rest : List Input) (s : State) : State :=
  { s with inputs := rest, result := none }

/-- No input was listed: a free draw has been taken, and the strobe is over (R12, R50). -/
def State.afterFreeDraw (s : State) : State :=
  { s with drawCount := s.drawCount + 1, result := none }

/-- What the next event is, and the state it meets. With no input listed the Extractor goes on by itself: it takes the
micro-step its phase enables, if any (R56, log entry 4). -/
def fetch (s : State) : EventWord × State :=
  match s.inputs with
  | [] => (inputWord s.xstate (.micro (Config.freeDraw s.drawCount)), s.afterFreeDraw)
  | i :: rest => (inputWord s.xstate i, s.afterInput rest)

/-- The state in which `e` is what the next step meets: the word stands first among the inputs, and for a word of format
XST the phase is the one whose code it is. -/
def State.present (e : EventWord) (s : State) : State :=
  match e with
  | .rst w => { s with inputs := .rst w :: s.inputs }
  | .cmd w => { s with inputs := .cmd w :: s.inputs }
  | .evt w => { s with inputs := .evt w :: s.inputs }
  | .xst w ctr0 => { s with inputs := .micro ctr0 :: s.inputs, xstate := XState.ofCode w }

end Sys2Proof.Machine
end

