-- ==== Sys2Proof/Machine/Ops.lean ====
section
/-! DEFINITION. The shared operations: the pool (R31 to R35), the four steps of a fold (R62 to R66), the removal and the
exit of the critical section (R78 to R81), and the acceptance of commands and micro-steps (R54, R56). The tick is the
block's one interrupt: taking it is `fold`, which saves nothing and has nothing to return from (R107, R108). -/

namespace Sys2Proof.Machine

/-! ## The pool -/

/-- `POOL[i]` (00_scope.md section 5). -/
def Memory.read : Memory → Nat → Byte
  | [], _ => Memory.unlisted
  | (a, v) :: rest, i => if a = i then v else Memory.read rest i

/-- `POOL[i] <- v`, in canonical form: writing what an unlisted slot reads as removes the entry. -/
def Memory.write : Memory → Nat → Byte → Memory
  | [], i, v => if v = Memory.unlisted then [] else [(i, v)]
  | (a, w) :: rest, i, v =>
    if i < a then
      if v = Memory.unlisted then (a, w) :: rest else (i, v) :: (a, w) :: rest
    else if i = a then
      if v = Memory.unlisted then rest else (i, v) :: rest
    else (a, w) :: Memory.write rest i v

/-- Addresses strictly rising from `lo`, all below `n`, no entry equal to what an unlisted slot reads as. -/
def Memory.wfFrom (n : Nat) : Nat → Memory → Bool
  | _, [] => true
  | lo, (a, v) :: rest =>
    decide (lo ≤ a) && decide (a < n) && decide (v ≠ Memory.unlisted) && Memory.wfFrom n (a + 1) rest

/-- The one canonical form of a pool of `n` slots. -/
def Memory.wf (n : Nat) (m : Memory) : Bool := Memory.wfFrom n 0 m

/-- "`POOL[i] <- POOL[i+1]`, each source read before any slot is overwritten (a shift toward the front by one position)"
(R35, R78 step 2): every slot's value moves to the address one lower, and slot 0's is gone. -/
def Memory.shiftDown : Memory → Memory
  | [] => []
  | (a, v) :: rest =>
    match a with
    | 0 => Memory.shiftDown rest
    | a' + 1 => (a', v) :: Memory.shiftDown rest

/-- `(v & ~(1 << b)) | (r << b)` at 8 bits (R34): one bit set or cleared, the other seven kept. -/
def setBit (v : Byte) (b : BitVec 3) (r : Bit) : Byte :=
  (v &&& ~~~(1#8 <<< b.toNat)) ||| ((BitVec.ofBool r).setWidth 8 <<< b.toNat)

/-- `PoolBitWrite(i, b, r)` (R34, R65). -/
def poolBitWrite (p : Params) (m : Memory) (i : Nat) (b : BitVec 3) (r : Bit) : Except Fault Memory :=
  if i < p.poolSize then .ok (m.write i (setBit (m.read i) b r)) else .error .poolIndexOutOfRange

/-- Steps 1 to 4 of R78 on the pool, with `k = BYTE_CUR`: the front byte, and the pool after the shift, the clear of the
trailing slot and the clear of slot `k`, in that order. -/
def poolRemove (p : Params) (m : Memory) (k : Nat) : Except Fault (Byte × Memory) :=
  if k < p.poolSize then
    .ok (m.read 0, ((m.shiftDown).write (p.poolSize - 1) 0x00#8).write k 0x00#8)
  else .error .poolIndexOutOfRange

/-! ## The fold -/

/-- `fb`: the exclusive or of bits 0, 2, 3 and 9 (R63). -/
def lfsrFeedback (s : Word) : Bit := s.getLsbD 0 ^^ s.getLsbD 2 ^^ s.getLsbD 3 ^^ s.getLsbD 9

/-- `LFSR_STEP(s) = (s >> 1) | (fb << 31)` (R63). -/
def lfsrStep (s : Word) : Word := (s >>> 1) ||| ((BitVec.ofBool (lfsrFeedback s)).setWidth 32 <<< 31)

/-- `r = bit(s', 0) ^ c`, of the new LFSR value and the draw (R64). -/
def mix (s' : Word) (c : Bit) : Bit := s'.getLsbD 0 ^^ c

/-- `ADVANCE(k, b)` (R66). -/
def advance (n k : Nat) (b : BitVec 3) : Nat × BitVec 3 :=
  if b.toNat < 7 then (k, b + 1#3)
  else if k < n - 1 then (k + 1, 0#3)
  else (0, 0#3)

/-- The registers a fold writes (R62). -/
def State.afterFold (l : Word) (m : Memory) (kb : Nat × BitVec 3) (s : State) : State :=
  { s with lfsr := l, pool := m, byteCur := kb.1, bitCur := kb.2 }

/-- `FOLD(c)`, its four steps in order (R62). -/
def fold (p : Params) (c : Bit) (s : State) : Except Fault State :=
  let l := lfsrStep s.lfsr
  match poolBitWrite p s.pool s.byteCur s.bitCur (mix l c) with
  | .error f => .error f
  | .ok m => .ok (s.afterFold l m (advance p.poolSize s.byteCur s.bitCur))

/-- `TICK_PEND <- v` (R61, R80). -/
def State.withPend (v : Bool) (s : State) : State := { s with tickPend := v }

/-- `TICK(c)` (R61). -/
def tick (p : Params) (c : Bit) (s : State) : Except Fault State :=
  match s.tickFate with
  | .ignored => .ok s
  | .held => .ok (s.withPend true)
  | .folds => fold p c s

/-! ## The Extractor -/

/-- `XSTATE <- x`, the block's only control transfer (R27). -/
def State.toPhase (x : XState) (s : State) : State := { s with xstate := x }

/-- `ISSUE`: `REMAIN <- n`, `ACC <- 0`, `XSTATE <- WAIT` (R75). -/
def State.issue (n : BitVec 3) (s : State) : State :=
  { s with remain := n, acc := 0x00000000#32, xstate := .wait }

/-- `POLL` (R76). -/
def State.polled (s : State) : State := if s.ready then s.toPhase .grant else s

/-- Steps 2 to 5 of R78: the pool after the removal, and `BYTE_CUR <- k - 1`. -/
def State.afterRemoval (m : Memory) (s : State) : State := { s with pool := m, byteCur := s.byteCur - 1 }

/-- `((ACC << 8) | zext_32(b))` truncated to 32 bits (R24, R81). -/
def shiftInByte (acc : Word) (b : Byte) : Word := (acc <<< 8) ||| b.setWidth 32

/-- Step 6 of R78 (R81): accumulate the byte and finish or continue. -/
def State.accumulate (b : Byte) (s : State) : State :=
  { s with
    acc := shiftInByte s.acc b
    remain := s.remain - 1#3
    xstate := if s.remain - 1#3 = 0#3 then .idle else .wait
    result := if s.remain - 1#3 = 0#3 then some (shiftInByte s.acc b) else s.result }

/-- `EXIT(c)` (R80): the phase is already set; a pended tick is served on the state the removal produced. -/
def exitSection (p : Params) (c : Bit) (s : State) : Except Fault State :=
  if s.tickPend then fold p c (s.withPend false) else .ok s

/-- REMOVE in the critical section: R79 at `BYTE_CUR = 0`, R78 otherwise, then the exit (R80). -/
def remove (p : Params) (c : Bit) (s : State) : Except Fault State :=
  if s.ready then
    match poolRemove p s.pool s.byteCur with
    | .error f => .error f
    | .ok (b, m) => exitSection p c ((s.afterRemoval m).accumulate b)
  else exitSection p c (s.toPhase .wait)

/-! ## Initialization and reset -/

/-- `INIT` (R93): every slot is cleared (nothing is listed), `XSTATE, REMAIN, ACC` are unchanged. -/
def State.initialised (p : Params) (s : State) : State :=
  { s with pool := [], byteCur := 0, bitCur := 0#3, lfsr := p.lfsrSeed, tickPend := false, armed := true }

/-- `RESET` (R114): the nine registers; the outside world goes on. -/
def State.cleared (p : Params) (s : State) : State :=
  { s with
    pool := [], byteCur := 0, bitCur := 0#3, lfsr := p.lfsrSeed, armed := false, tickPend := false
    xstate := .idle, remain := 0#3, acc := 0x00000000#32 }

/-! ## When an event occurs -/

/-- A command: accepted in IDLE only; "a command presented" while busy "has no effect" (R54, log entry 5). -/
def acceptCommand (f : State → State) (s : State) : Host.Outcome State Fault Refusal :=
  if s.busy then .next s else .next (f s)

/-- The outcome of an operation that can leave the address space. -/
def outcome : Except Fault State → Host.Outcome State Fault Refusal
  | .ok s => .next s
  | .error f => .fault f

/-- A micro-step: it exists in one phase only (R56, log entry 7). -/
def inPhase (x : XState) (f : State → Except Fault State) (s : State) : Host.Outcome State Fault Refusal :=
  if s.xstate = x then outcome (f s) else .refused .microStepNotEnabled

end Sys2Proof.Machine
end

