-- ==== Sys2Proof/Machine/Extractor.lean ====
section
/-! DEFINITION. The Extractor's commands and micro-steps (spec/41_extractor.md). -/

namespace Sys2Proof.Machine

/-- NEXTBYTE: ISSUE with `REMAIN = 1` (R75, R82). -/
def execNextByte (s : State) : Host.Outcome State Fault Refusal := acceptCommand (State.issue 1#3) s

/-- NEXTINT: ISSUE with `REMAIN = 2` (R75, R83). -/
def execNextInt (s : State) : Host.Outcome State Fault Refusal := acceptCommand (State.issue 2#3) s

/-- NEXTLONG: ISSUE with `REMAIN = 4` (R75, R84). -/
def execNextLong (s : State) : Host.Outcome State Fault Refusal := acceptCommand (State.issue 4#3) s

/-- POLL, in WAIT (R76). -/
def execPoll (s : State) : Host.Outcome State Fault Refusal := inPhase .wait (fun t => .ok t.polled) s

/-- ENTER, in GRANT (R77). -/
def execEnter (s : State) : Host.Outcome State Fault Refusal := inPhase .grant (fun t => .ok (t.toPhase .crit)) s

/-- REMOVE, in CRIT (R78 to R81). -/
def execRemove (c : Bit) (s : State) : Host.Outcome State Fault Refusal := inPhase .crit (remove Config.params c) s

end Sys2Proof.Machine
end

