-- ==== Sys2Proof/Machine/Folder.lean ====
section
/-! DEFINITION. The Entropy Folder's event (spec/40_folder.md). -/

namespace Sys2Proof.Machine

/-- TICK c (R61). -/
def execTick (c : Bit) (s : State) : Host.Outcome State Fault Refusal := outcome (tick Config.params c s)

end Sys2Proof.Machine
end

