-- ==== Sys2Proof/Machine/Init.lean ====
section
/-! DEFINITION. RESET (spec/70_reset_and_hazards.md), INIT, NOP (spec/42_init.md) and the reserved command codes
(spec/30_encoding.md R55). -/

namespace Sys2Proof.Machine

/-- RESET, enabled in every state (R114). -/
def execReset (s : State) : Host.Outcome State Fault Refusal := .next (s.cleared Config.params)

/-- NOP (R96). -/
def execNop (s : State) : Host.Outcome State Fault Refusal := acceptCommand id s

/-- INIT (R93, R95). -/
def execInit (s : State) : Host.Outcome State Fault Refusal := acceptCommand (State.initialised Config.params) s

/-- The reserved code 101: "The hardware treats a reserved code as NOP" (R55, log entry 6). -/
def execReserved5 (s : State) : Host.Outcome State Fault Refusal := acceptCommand id s

/-- The reserved code 110, as NOP (R55, log entry 6). -/
def execReserved6 (s : State) : Host.Outcome State Fault Refusal := acceptCommand id s

/-- The reserved code 111, as NOP (R55, log entry 6). -/
def execReserved7 (s : State) : Host.Outcome State Fault Refusal := acceptCommand id s

end Sys2Proof.Machine
end

