-- ==== Sys2Proof/Machine/Dispatch.lean ====
section
/-! DEFINITION. One arm per event of R52. -/

namespace Sys2Proof.Machine

def exec (i : Instr) (s : State) : Host.Outcome State Fault Refusal :=
  match i with
  | .reset => Sys2Proof.Machine.execReset s
  | .nop => Sys2Proof.Machine.execNop s
  | .init => Sys2Proof.Machine.execInit s
  | .nextByte => Sys2Proof.Machine.execNextByte s
  | .nextInt => Sys2Proof.Machine.execNextInt s
  | .nextLong => Sys2Proof.Machine.execNextLong s
  | .reserved5 => Sys2Proof.Machine.execReserved5 s
  | .reserved6 => Sys2Proof.Machine.execReserved6 s
  | .reserved7 => Sys2Proof.Machine.execReserved7 s
  | .tick c => Sys2Proof.Machine.execTick c s
  | .poll => Sys2Proof.Machine.execPoll s
  | .enter => Sys2Proof.Machine.execEnter s
  | .remove c => Sys2Proof.Machine.execRemove c s

end Sys2Proof.Machine
end

