-- ==== Sys2Proof/Machine/Step.lean ====
section
/-! DEFINITION. One step is one atomic event (R10, R39). -/

namespace Sys2Proof.Machine

/-- Take the next input, decode its word, run the event it selects; a word that selects none changes nothing (R53). -/
def step (s : State) : Host.Outcome State Fault Refusal :=
  match decode (fetch s).1 with
  | .ok i => exec i (fetch s).2
  | .error _ => .next (fetch s).2

/-- `s` with the word of a table row as what the next step meets (log entries 12, 13). A number that is no word of its
port places nothing. -/
def State.withFetchWord (s : State) (nbits w : Nat) : State :=
  match tableWord nbits w with
  | none => s
  | some e => s.present e

end Sys2Proof.Machine
end

