-- ==== Sys2Proof/Machine/Environment.lean ====
section
/-! DEFINITION. What the agents outside the block do: when an event is enabled and a trace admissible (R59), when a run of a
finite program is over (R130), what the environment may present and what it owes (R131), and runs in which it goes on for
ever (R111, D27). -/

namespace Sys2Proof.Machine

/-! ## Traces (R59) -/

/-- The `enabled_when` column of spec/opcode_table.json (R54, R56, R59). -/
def enabled (i : Instr) (s : State) : Bool :=
  match i with
  | .reset => true
  | .nop => !s.busy
  | .init => !s.busy
  | .nextByte => !s.busy
  | .nextInt => !s.busy
  | .nextLong => !s.busy
  | .reserved5 => !s.busy
  | .reserved6 => !s.busy
  | .reserved7 => !s.busy
  | .tick _ => true
  | .poll => decide (s.xstate = .wait)
  | .enter => decide (s.xstate = .grant)
  | .remove _ => decide (s.xstate = .crit)

/-- The input word of an event: "micro-steps have no input word and are written `-`" (R59), with the value of the `ctr0`
wire. -/
def inputOf (i : Instr) : Input :=
  match encode i with
  | .rst w => .rst w
  | .cmd w => .cmd w
  | .evt w => .evt w
  | .xst _ ctr0 => .micro ctr0

/-- "The encoding of a program is the list of its input words" (R59). -/
def programWords (p : List Instr) : List Input := p.map inputOf

/-- The events of a trace, one after the other, each with its own strobe (R50), stopping at the first fault or refusal. -/
def runTrace : List Instr → State → Host.Outcome State Fault Refusal
  | [], s => .next s
  | i :: rest, s =>
    match exec i { s with result := none } with
    | .next t => runTrace rest t
    | .fault f => .fault f
    | .refused r => .refused r

/-- "A trace is *admissible* when every event in it is enabled in the state it meets" (R59). The events have their names
here, so `enter` in WAIT is not admissible although its word `-` is that of `poll`. After a fault or a refusal there is no
state to meet. -/
def admissible : List Instr → State → Bool
  | [], _ => true
  | i :: rest, s =>
    enabled i s &&
      match exec i { s with result := none } with
      | .next t => admissible rest t
      | .fault _ => false
      | .refused _ => false

/-! ## The end of a run (R130) -/

/-- The input raises RESET (R49). -/
def raisesReset (i : Input) : Bool := decide (i = .rst 1#1)

/-- The input raises a TICK (R53). -/
def raisesTick : Input → Bool
  | .evt w => w.getLsbD 1
  | .rst _ => false
  | .cmd _ => false
  | .micro _ => false

/-- The input is a word on the command port (R48). -/
def presentsCommand : Input → Bool
  | .cmd _ => true
  | .rst _ => false
  | .evt _ => false
  | .micro _ => false

/-- "A run of a finite program (a finite list of commands) is over when the last command's RESULT has been emitted and
`XSTATE = IDLE`; ticks may continue to arrive after that" (R130). The commands still to come are those among `inputs`, and
in IDLE every command that came has emitted its RESULT (log entry 21). -/
def State.over (s : State) : Bool := !s.busy && s.inputs.all fun i => !presentsCommand i

/-! ## The environment (R131) -/

/-- The commands NEXTBYTE, NEXTINT and NEXTLONG (R75). -/
def Instr.extracts : Instr → Bool
  | .nextByte => true
  | .nextInt => true
  | .nextLong => true
  | .reset => false
  | .nop => false
  | .init => false
  | .reserved5 => false
  | .reserved6 => false
  | .reserved7 => false
  | .tick _ => false
  | .poll => false
  | .enter => false
  | .remove _ => false

/-- What the environment can do at a state, by the rows of R131. RESET and TICK: "at any point". A command: "whenever
`XSTATE = IDLE`", with the duties "INIT before the first extraction", "no reserved code", "no command while busy". A
micro-step: where one is enabled. -/
def mayPresent (s : State) (x : Input) : Bool :=
  match x with
  | .rst _ => true
  | .evt _ => true
  | .micro _ => s.busy
  | .cmd w =>
    match decode (.cmd w) with
    | .ok i => !s.busy && i.wf && (s.armed || !Instr.extracts i)
    | .error _ => false

/-- One interaction of the environment: the step on the input it presents, in place of the listed ones. "A model has no move
for" the violation of a duty, "or refuses it" (R131, U14): refused by name (log entry 5). -/
def move (x : Input) (s : State) : Host.Outcome State Fault Refusal :=
  if mayPresent s x then step { s with inputs := [x] } else .refused .dutyBroken

/-- An environment that goes on for ever: what it presents at each interaction (R111, R130: "The block never
terminates"). -/
abbrev Environment := Nat → Input

/-- The state after `n` interactions, stopping at the first fault or refusal. -/
def after (env : Environment) : Nat → State → Host.Outcome State Fault Refusal
  | 0, s => .next s
  | n + 1, s =>
    match after env n s with
    | .next t => move (env n) t
    | .fault f => .fault f
    | .refused r => .refused r

/-- The environment breaks no duty of R131 in the run from `s`. -/
def Dutiful (env : Environment) (s : State) : Prop :=
  ∀ n t, after env n s = .next t → mayPresent t (env n) = true

/-- `TICKS_FAIR` of the run from `s` (D27, log entry 20): "after INIT, TICK events keep occurring and POLL/ENTER/REMOVE are
eventually taken". -/
structure TicksFair (env : Environment) (s : State) : Prop where
  /-- "After INIT the ticks keep coming" (R131). -/
  ticks : ∀ n t, after env n s = .next t → t.armed = true → ∃ m, n ≤ m ∧ raisesTick (env m) = true
  /-- "Each enabled micro-step is eventually taken" (R131), unless a RESET withdraws it. -/
  taken : ∀ n t, after env n s = .next t → t.busy = true →
    ∃ m, n ≤ m ∧ ((∃ c, env m = .micro c) ∨ raisesReset (env m) = true)

/-- An environment that meets every duty of R131 in its run from the launch state. -/
structure Lawful (env : Environment) : Prop where
  /-- "A run starts with one": RESET (R115). -/
  starts : env 0 = .rst 0b1#1
  /-- INIT before the first extraction, no reserved code, no command while busy. -/
  dutiful : Dutiful env State.reset
  /-- The ticks keep coming, and the micro-steps are taken. -/
  fair : TicksFair env State.reset

end Sys2Proof.Machine
end

