-- ==== Sys2Proof/Safety.lean ====
section
/-! DEFINITION. What the claims speak of: the invariants of R28, the pool as the queue of R45, and
what a run folds, completes and delivers (R73, R86). -/

namespace Sys2Proof.Machine

/-- Invariants I1 to I6 of R28 (I2, `BIT_CUR < 8`, is the width of the field), the canonical form of the pool, and that
only an armed block holds a tick pending. -/
structure Inv (p : Params) (s : State) : Prop where
  /-- The pool is in its canonical form, inside `0 .. N-1` (R31). -/
  pool_wf : s.pool.wf p.poolSize = true
  /-- I1. -/
  byteCur_lt : s.byteCur < p.poolSize
  /-- I3. -/
  lfsr_ne : s.lfsr ≠ 0#32
  /-- I4, first half. -/
  idle_iff : s.xstate = .idle ↔ s.remain = 0#3
  /-- I4, second half. -/
  remain_le : s.remain.toNat ≤ 4
  /-- I5. -/
  pend_crit : s.tickPend = true → s.xstate = .crit
  /-- A tick before arming is not held (R102). -/
  pend_armed : s.tickPend = true → s.armed = true
  /-- I6. -/
  unarmed : s.armed = false → s.byteCur = 0 ∧ s.bitCur = 0#3 ∧ s.lfsr = p.lfsrSeed ∧ s.pool = []

/-- While a command is in progress `ACC` leaves room for the bytes still owed, `REMAIN` of them, so no shift of this command
loses a bit (R81). -/
def AccFits (s : State) : Prop := s.xstate ≠ .idle → s.acc.toNat < 2 ^ (8 * (4 - s.remain.toNat))

/-- The byte whose bit `j` is the `j`-th of the list (R33, R73). -/
def byteOfBits (bits : List Bit) : Byte := BitVec.ofNat 8 (bits.foldr (fun b n => b.toNat + 2 * n) 0)

/-- The bits of a byte, least significant first (R33). -/
def bitsOfByte (b : Byte) : List Bit := (List.range 8).map b.getLsbD

/-- The pool as the two agents may rely on it (R14, R45). -/
structure View where
  /-- The completed bytes, oldest first: slots `0 .. BYTE_CUR-1`. -/
  complete : List Byte
  /-- The bits of the partial byte written so far: bits `0 .. BIT_CUR-1` of slot `BYTE_CUR`. -/
  part : List Bit
  deriving DecidableEq, Repr

/-- What of the pool is not stale (R14, R26). -/
def State.view (s : State) : View where
  complete := (List.range s.byteCur).map s.pool.read
  part := (List.range s.bitCur.toNat).map (s.pool.read s.byteCur).getLsbD

/-- "FOLD appends at the back when it completes a byte (or empties the whole queue when that byte is in slot `N-1`)"
(R45). -/
def View.fold (n : Nat) (r : Bit) (v : View) : View :=
  if v.part.length < 7 then { v with part := v.part ++ [r] }
  else if v.complete.length + 1 < n then { complete := v.complete ++ [byteOfBits (v.part ++ [r])], part := [] }
  else { complete := [], part := [] }

/-- "REMOVE takes from the front" (R45). -/
def View.dropFront (v : View) : View := { v with complete := v.complete.tail }

/-- `k` steps, stopping at the first fault or refusal. -/
def runSteps : Nat → State → Host.Outcome State Fault Refusal
  | 0, s => .next s
  | k + 1, s =>
    match step s with
    | .next t => runSteps k t
    | .fault f => .fault f
    | .refused r => .refused r

/-- The result `r` of the fold that the next event runs, if it runs one (R61, R64, R80). -/
def foldBit (s : State) : Option Bit :=
  match decode (fetch s).1 with
  | .ok (.tick c) => if s.tickFate = .folds then some (mix (lfsrStep s.lfsr) c) else none
  | .ok (.remove c) => if s.tickPend then some (mix (lfsrStep s.lfsr) c) else none
  | _ => none

/-- The byte that the next event completes, if it completes one: its bits are the bits of the partial byte and the new
one (R73). -/
def completion (s : State) : Option Byte :=
  match foldBit s with
  | some r => if s.bitCur = 7#3 then some (byteOfBits (s.view.part ++ [r])) else none
  | none => none

/-- The byte that the next event removes, if it removes one (R78). -/
def delivery (s : State) : Option Byte :=
  match decode (fetch s).1 with
  | .ok (.remove _) => if s.ready then some (s.pool.read 0) else none
  | _ => none

/-- The next event is a RESET or an accepted INIT: the pool starts afresh (R93, R114). -/
def restarts (s : State) : Bool :=
  match decode (fetch s).1 with
  | .ok .reset => true
  | .ok .init => !s.busy
  | _ => false

/-- The next event completes a byte in slot `N-1` (R74), where a removal in the same event has first moved the cursor
down (R80). -/
def wraps (s : State) : Bool :=
  (completion s).isSome && decide (s.byteCur - (delivery s).toList.length = Config.poolSize - 1)

/-- A list of what `k` steps yield, in order. -/
def collect {α : Type} (f : State → Option α) : Nat → State → List α
  | 0, _ => []
  | k + 1, s =>
    (f s).toList ++
      match step s with
      | .next t => collect f k t
      | .fault _ => []
      | .refused _ => []

/-- No state that `k` steps meet satisfies `f`. -/
def never (f : State → Bool) : Nat → State → Bool
  | 0, _ => true
  | k + 1, s =>
    !f s &&
      match step s with
      | .next t => never f k t
      | .fault _ => true
      | .refused _ => true

/-- The event words of ticks with these draws (R53, R58 `TICK8`). -/
def tickWords (draws : List Bit) : List Input := draws.map fun c => .evt (0b1#1 ++ BitVec.ofBool c)

/-- Micro-steps with these values of the `ctr0` wire (R59). -/
def microSteps (draws : List Bit) : List Input := draws.map .micro

end Sys2Proof.Machine
end

