-- ==== Sys2Proof/Certificates/Slice0/Obligations.lean ====
section
/-! DEFINITION. The statements, in the order of spec/: encodings, the step, reset and initialization, the Folder, the
Extractor, and the machine as a whole. Each docstring says which rule it formalises. -/

open Sys2Proof Sys2Proof.Machine

/-! ## Encodings and the step -/

/-- R52: no bit of an encoding is dropped. -/
def Obligations.DecodeOfEncodeGivesTheEvent : Prop := ∀ i : Instr, decode (encode i) = .ok i

/-- R52, R55, R60: the command port's table, every code. -/
def Obligations.CommandCodesDecodeAsTheTableSays : Prop :=
  decode (.cmd 0b000#3) = .ok .nop ∧ decode (.cmd 0b001#3) = .ok .init ∧ decode (.cmd 0b010#3) = .ok .nextByte ∧
  decode (.cmd 0b011#3) = .ok .nextInt ∧ decode (.cmd 0b100#3) = .ok .nextLong ∧
  decode (.cmd 0b101#3) = .ok .reserved5 ∧ decode (.cmd 0b110#3) = .ok .reserved6 ∧
  decode (.cmd 0b111#3) = .ok .reserved7

/-- R53, R56: the event word, the reset input and the code of the phase. -/
def Obligations.EventResetAndPhaseWordsDecode : Prop :=
  (∀ c, decode (.evt (0b1#1 ++ BitVec.ofBool c)) = .ok (.tick c)) ∧
  (∀ c, decode (.evt (0b0#1 ++ BitVec.ofBool c)) = .error .noTick) ∧
  decode (.rst 0b1#1) = .ok .reset ∧ decode (.rst 0b0#1) = .error .resetNotAsserted ∧
  (∀ c, decode (.xst XState.wait.code c) = .ok .poll) ∧ (∀ c, decode (.xst XState.grant.code c) = .ok .enter) ∧
  (∀ c, decode (.xst XState.crit.code c) = .ok (.remove c)) ∧
  (∀ c, decode (.xst XState.idle.code c) = .error .noMicroStep)

/-- R52: an input word that is read as an event is that event's word, so no two words of one input port share one. -/
def Obligations.InputWordsHaveOneEventEach : Prop :=
  ∀ (e : EventWord) (i : Instr), decode e = .ok i → e.format ≠ .xst → encode i = e

/-- The model's choice of how the events of R59 come to the block (log entry 3): the step takes the FIRST input off the list,
ends the strobe of the event before (R50), and is `exec` of the event that the input's word decodes to. With no input listed
it is the micro-step of the phase (log entry 4) on a free draw, which the draw counter numbers (log entry 14). -/
def Obligations.StepRunsTheDecodedEvent : Prop :=
  (∀ (s : State) (x : Input) (rest : List Input) (i : Instr), s.inputs = x :: rest →
    decode (inputWord s.xstate x) = .ok i → step s = exec i { s with inputs := rest, result := none }) ∧
  (∀ (s : State) (i : Instr), s.inputs = [] → decode (.xst s.xstate.code (Config.freeDraw s.drawCount)) = .ok i →
    step s = exec i { s with drawCount := s.drawCount + 1, result := none })

/-- R53 (`0x` is no event), R56 (IDLE enables no micro-step), R117 (after RESET the block does nothing until it receives a
command or a tick). That such a word is taken in a step of its own is the model's choice (log entries 4 and 19). -/
def Obligations.WordsOfNoEventChangeNothing : Prop :=
  (∀ (s : State) (x : Input) (rest : List Input), s.inputs = x :: rest →
    (x = .rst 0b0#1 ∨ x = .evt 0b00#2 ∨ x = .evt 0b01#2 ∨ (s.xstate = .idle ∧ ∃ c, x = .micro c)) →
    step s = .next { s with inputs := rest, result := none }) ∧
  (∀ s : State, s.inputs = [] → s.xstate = .idle →
    step s = .next { s with drawCount := s.drawCount + 1, result := none })

/-! ## Parameters, reset, initialization, commands -/

/-- R6, R7: the constraints on the two open parameters. -/
def Obligations.ParametersMeetTheirConstraints : Prop := 2 ≤ Config.poolSize ∧ Config.lfsrSeed ≠ 0#32

/-- R114: the RST word, every register after RESET, in every state, and no RESULT. -/
def Obligations.ResetClearsEveryRegister : Prop :=
  decode (.rst 0b1#1) = .ok .reset ∧
  (∀ s : State, ∃ t, exec .reset s = .next t ∧
    t = { s with pool := t.pool, byteCur := 0, bitCur := 0#3, lfsr := Config.lfsrSeed, armed := false,
                 tickPend := false, xstate := .idle, remain := 0#3, acc := 0#32 } ∧
    ∀ i, t.pool.read i = 0x00#8) ∧
  (∀ (s : State) (rest : List Input), s.inputs = .rst 0b1#1 :: rest →
    step s = .next { State.reset with inputs := rest, drawCount := s.drawCount })

/-- R29, R117, R131: the launch state. -/
def Obligations.LaunchStateHoldsTheResetValues : Prop :=
  (∀ i, State.reset.pool.read i = 0x00#8) ∧ State.reset.byteCur = 0 ∧ State.reset.bitCur = 0#3 ∧
  State.reset.lfsr = Config.lfsrSeed ∧ State.reset.armed = false ∧ State.reset.tickPend = false ∧
  State.reset.xstate = .idle ∧ State.reset.remain = 0#3 ∧ State.reset.acc = 0#32 ∧
  State.reset.mask = false ∧ State.reset.busy = false ∧ State.reset.readyCount = 0

/-- R93, R95: INIT, in IDLE, the first and every later one; `XSTATE`, `REMAIN` and `ACC` stay, and no result is
emitted. -/
def Obligations.InitBringsTheStartingCondition : Prop :=
  decode (.cmd 0b001#3) = .ok .init ∧
  (∀ s : State, s.xstate = .idle → ∃ t, exec .init s = .next t ∧
    t = { s with pool := t.pool, byteCur := 0, bitCur := 0#3, lfsr := Config.lfsrSeed, tickPend := false,
                 armed := true } ∧
    ∀ i, t.pool.read i = 0x00#8) ∧
  ∀ (s : State) (rest : List Input), s.xstate = .idle → s.inputs = .cmd 0b001#3 :: rest →
    ∃ t, step s = .next t ∧ exec .init { s with inputs := rest, result := none } = .next t ∧ t.result = none

/-- R96: NOP, in IDLE: no state change and no result; and the reserved codes, in hardware, the same. -/
def Obligations.NopChangesNothing : Prop :=
  decode (.cmd 0b000#3) = .ok .nop ∧
  (∀ s : State, s.xstate = .idle → exec .nop s = .next s ∧
    exec .reserved5 s = exec .nop s ∧ exec .reserved6 s = exec .nop s ∧ exec .reserved7 s = exec .nop s) ∧
  ∀ (s : State) (rest : List Input), s.xstate = .idle → s.inputs = .cmd 0b000#3 :: rest →
    step s = .next { s with inputs := rest, result := none }

/-- R55, its first sentence on behaviour: "The hardware treats a reserved code as NOP: no state change, no result" (log
entry 6). -/
def Obligations.ReservedCodesActAsNop : Prop :=
  ∀ s : State, exec .reserved5 s = .next s ∧ exec .reserved6 s = .next s ∧ exec .reserved7 s = .next s

/-- R54: "a command presented has no effect" while busy (log entry 5: the model's step takes the word and changes
nothing). -/
def Obligations.CommandWhileBusyHasNoEffect : Prop :=
  ∀ (s : State) (i : Instr), s.xstate ≠ .idle → i.format = .cmd → exec i s = .next s

/-- R75: the issue of the three extraction commands, whatever `ARMED` is. -/
def Obligations.IssueLoadsRemainAndWaits : Prop :=
  (decode (.cmd 0b010#3) = .ok .nextByte ∧ decode (.cmd 0b011#3) = .ok .nextInt ∧
    decode (.cmd 0b100#3) = .ok .nextLong) ∧
  ∀ s : State, s.xstate = .idle →
    exec .nextByte s = .next { s with remain := 1#3, acc := 0#32, xstate := .wait } ∧
    exec .nextInt s = .next { s with remain := 2#3, acc := 0#32, xstate := .wait } ∧
    exec .nextLong s = .next { s with remain := 4#3, acc := 0#32, xstate := .wait } ∧
    ∀ n : BitVec 3, { s with remain := n, acc := 0#32, xstate := .wait }.busy = true

/-- R19, R102: `ARMED` is set by INIT only and cleared by RESET only. -/
def Obligations.OnlyInitArmsAndOnlyResetDisarms : Prop :=
  ∀ (i : Instr) (s t : State), exec i s = .next t →
    (s.armed = true → t.armed = false → i = .reset) ∧ (s.armed = false → t.armed = true → i = .init)

/-! ## The Entropy Folder -/

/-- R61: the three arms of TICK, with all that each writes. -/
def Obligations.TickFollowsItsThreeArms : Prop :=
  (∀ c, decode (.evt (0b1#1 ++ BitVec.ofBool c)) = .ok (.tick c)) ∧
  ∀ (s : State) (c : Bit),
    (s.armed = false → exec (.tick c) s = .next s) ∧
    (s.armed = true → s.xstate = .crit → exec (.tick c) s = .next { s with tickPend := true }) ∧
    (s.armed = true → s.xstate ≠ .crit → s.byteCur < Config.poolSize →
      exec (.tick c) s = .next
        { s with
          lfsr := lfsrStep s.lfsr
          pool := s.pool.write s.byteCur
            (setBit (s.pool.read s.byteCur) s.bitCur (mix (lfsrStep s.lfsr) c))
          byteCur := (advance Config.poolSize s.byteCur s.bitCur).1
          bitCur := (advance Config.poolSize s.byteCur s.bitCur).2 })

/-- R34, R62, R64, R65: a fold writes bit `BIT_CUR` of slot `BYTE_CUR` with `bit(LFSR, 1) ^ c`; every other bit of the slot
and every other slot reads as before, and the Extractor's registers, `ARMED` and `TICK_PEND` are not touched. -/
def Obligations.FoldWritesOneBitOfOneSlot : Prop :=
  ∀ (s : State) (c : Bit), s.armed = true → s.xstate ≠ .crit → s.pool.wf Config.poolSize = true →
    s.byteCur < Config.poolSize →
    ∃ t, exec (.tick c) s = .next t ∧
      t = { s with pool := t.pool, byteCur := t.byteCur, bitCur := t.bitCur, lfsr := t.lfsr } ∧
      (∀ i, i ≠ s.byteCur → t.pool.read i = s.pool.read i) ∧
      ∀ j, j < 8 → (t.pool.read s.byteCur).getLsbD j =
        if j = s.bitCur.toNat then s.lfsr.getLsbD 1 ^^ c else (s.pool.read s.byteCur).getLsbD j

/-- R63: the LFSR after a fold, bit by bit, from the old state. -/
def Obligations.FoldStepsTheLfsr : Prop :=
  ∀ (s : State) (c : Bit), s.armed = true → s.xstate ≠ .crit → s.byteCur < Config.poolSize →
    ∃ t, exec (.tick c) s = .next t ∧
      t.lfsr.getLsbD 31 = (s.lfsr.getLsbD 0 ^^ s.lfsr.getLsbD 2 ^^ s.lfsr.getLsbD 3 ^^ s.lfsr.getLsbD 9) ∧
      ∀ i, i ≤ 30 → t.lfsr.getLsbD i = s.lfsr.getLsbD (i + 1)

/-- R66: the cursors after a fold. The values 8 and `N` are never stored, and the wrap signals nothing. -/
def Obligations.FoldAdvancesTheCursors : Prop :=
  ∀ (s : State) (c : Bit), s.armed = true → s.xstate ≠ .crit → s.byteCur < Config.poolSize →
    ∃ t, exec (.tick c) s = .next t ∧ t.result = s.result ∧
      (s.bitCur.toNat < 7 → t.byteCur = s.byteCur ∧ t.bitCur.toNat = s.bitCur.toNat + 1) ∧
      (s.bitCur.toNat = 7 → s.byteCur < Config.poolSize - 1 → t.byteCur = s.byteCur + 1 ∧ t.bitCur.toNat = 0) ∧
      (s.bitCur.toNat = 7 → s.byteCur = Config.poolSize - 1 → t.byteCur = 0 ∧ t.bitCur.toNat = 0)

/-- R68: LFSR_STEP is a bijection, with the inverse the rule gives. -/
def Obligations.LfsrStepHasTheInverseOfTheRule : Prop :=
  ∀ s' : Word,
    let s := (s' <<< 1) ||| (BitVec.ofBool
      (s'.getLsbD 31 ^^ s'.getLsbD 1 ^^ s'.getLsbD 2 ^^ s'.getLsbD 8)).setWidth 32
    lfsrStep s = s' ∧ ∀ u : Word, lfsrStep u = s' → u = s

/-- R69: zero is the fixed point of LFSR_STEP and no other value maps to it. -/
def Obligations.OnlyZeroStepsToZero : Prop := ∀ s : Word, lfsrStep s = 0#32 ↔ s = 0#32

/-- R72: the LFSR bit of the `n`-th fold is bit `n` of the seed up to the 31st, and a feedback bit from the 32nd on. -/
def Obligations.LowBitsAreSeedBitsThenFeedback : Prop :=
  ∀ (s : Word) (n : Nat),
    (lfsrStep^[n + 1] s).getLsbD 0 = (lfsrStep^[n] s).getLsbD 1 ∧
    (1 ≤ n → n ≤ 31 → (lfsrStep^[n] s).getLsbD 0 = s.getLsbD n) ∧
    (lfsrStep^[n + 32] s).getLsbD 0 = lfsrFeedback (lfsrStep^[n] s)

/-- R105: further ticks inside the section change nothing, and the exit runs one fold: REMOVE leaves no tick pending. -/
def Obligations.TicksInsideTheSectionMerge : Prop :=
  ∀ (s : State) (c d e : Bit), Inv Config.params s → s.armed = true → s.xstate = .crit →
    ∃ t u, exec (.tick c) s = .next t ∧ t = { s with tickPend := true } ∧ exec (.tick d) t = .next t ∧
      exec (.remove e) t = .next u ∧ u.tickPend = false ∧ u.lfsr = lfsrStep s.lfsr

/-- R74: the wrap empties the queue in the one fold, writes no other slot, and signals nothing. -/
def Obligations.WrapDropsEveryReadyByte : Prop :=
  ∀ (s : State) (c : Bit), Inv Config.params s → s.armed = true → s.xstate ≠ .crit →
    s.byteCur = Config.poolSize - 1 → s.bitCur = 7#3 →
    ∃ t, exec (.tick c) s = .next t ∧ s.readyCount = Config.poolSize - 1 ∧ t.readyCount = 0 ∧
      t.view = { complete := [], part := [] } ∧ t.result = s.result ∧
      ∀ i, i ≠ s.byteCur → t.pool.read i = s.pool.read i

/-- R66, R74, R63: any number of unmasked ticks. The position `8 * BYTE_CUR + BIT_CUR` counts the folds modulo `8 * N`, so
the wrap falls at fold `8 * (N - k) - b`, and the LFSR has advanced once per fold. -/
def Obligations.TicksAdvanceThePositionModuloThePool : Prop :=
  ∀ (s : State) (draws : List Bit) (rest : List Input), Inv Config.params s → s.tickFate = .folds →
    s.inputs = tickWords draws ++ rest →
    ∃ t, runSteps draws.length s = .next t ∧ t.inputs = rest ∧
      8 * t.byteCur + t.bitCur.toNat =
        (8 * s.byteCur + s.bitCur.toNat + draws.length) % (8 * Config.poolSize) ∧
      t.lfsr = lfsrStep^[draws.length] s.lfsr ∧
      t.xstate = s.xstate ∧ t.remain = s.remain ∧ t.acc = s.acc

/-! ## The Extractor -/

/-- R76: POLL, in WAIT. -/
def Obligations.PollGrantsWhenAByteIsReady : Prop :=
  (∀ c, decode (.xst XState.wait.code c) = .ok .poll) ∧
  ∀ s : State, s.xstate = .wait →
    (1 ≤ s.byteCur → exec .poll s = .next { s with xstate := .grant }) ∧
    (s.byteCur = 0 → exec .poll s = .next s)

/-- R77: ENTER, in GRANT, whatever the cursor; then the tick is masked, and a TICK sets `TICK_PEND`. -/
def Obligations.EnterTakesTheSection : Prop :=
  (∀ c, decode (.xst XState.grant.code c) = .ok .enter) ∧
  ∀ s : State, s.xstate = .grant →
    exec .enter s = .next { s with xstate := .crit } ∧ { s with xstate := .crit }.mask = true ∧
    ∀ c, s.armed = true →
      exec (.tick c) { s with xstate := .crit } = .next { s with xstate := .crit, tickPend := true }

/-- R78, R81: REMOVE with a byte ready. `t` is the state after steps 1 to 6: every slot, the cursor, the accumulator, the
count, the phase and the result; `BIT_CUR`, `LFSR` and `ARMED` are unchanged. With no tick pending it is the outcome; with
one pending, the exit runs its fold on it (R80). -/
def Obligations.RemoveTakesTheFrontByte : Prop :=
  (∀ c, decode (.xst XState.crit.code c) = .ok (.remove c)) ∧
  ∀ (s : State) (c : Bit), s.xstate = .crit → s.pool.wf Config.poolSize = true →
    1 ≤ s.byteCur → s.byteCur < Config.poolSize →
    ∃ t : State,
      t = { s with pool := t.pool, byteCur := s.byteCur - 1, tickPend := false, acc := t.acc, remain := s.remain - 1#3,
                   xstate := t.xstate, result := t.result } ∧
      (∀ i, i ≤ Config.poolSize - 2 → i ≠ s.byteCur → t.pool.read i = s.pool.read (i + 1)) ∧
      t.pool.read s.byteCur = 0x00#8 ∧ t.pool.read (Config.poolSize - 1) = 0x00#8 ∧
      t.acc = (s.acc <<< 8) ||| (s.pool.read 0).setWidth 32 ∧
      (s.remain = 1#3 → t.xstate = .idle ∧ t.result = some t.acc) ∧
      (s.remain ≠ 1#3 → t.xstate = .wait ∧ t.result = s.result) ∧
      (s.tickPend = false → exec (.remove c) s = .next t) ∧
      (s.tickPend = true → s.armed = true → ∃ u, exec (.remove c) s = .next u ∧ exec (.tick c) t = .next u)

/-- R79: REMOVE at `BYTE_CUR = 0` removes nothing and goes back to the busy-wait, through the same exit. -/
def Obligations.RemoveAtZeroGoesBackToTheWait : Prop :=
  ∀ (s : State) (c : Bit), s.xstate = .crit → s.byteCur = 0 →
    (s.tickPend = false → exec (.remove c) s = .next { s with xstate := .wait }) ∧
    (s.tickPend = true → s.armed = true →
      ∃ t, exec (.remove c) s = .next t ∧ exec (.tick c) { s with xstate := .wait, tickPend := false } = .next t)

/-- R80: a pended tick is served after the removal, on the state the removal produced, and is then no longer pending. -/
def Obligations.ExitServesThePendedTick : Prop :=
  ∀ (s : State) (c : Bit), Inv Config.params s → s.xstate = .crit → s.tickPend = true →
    ∃ t u, exec (.remove c) { s with tickPend := false } = .next t ∧ t.tickPend = false ∧
      exec (.tick c) t = .next u ∧ exec (.remove c) s = .next u ∧ u.tickPend = false

/-- R90: the partial byte moves down with the cursor and keeps its progress. -/
def Obligations.PartialByteSurvivesARemoval : Prop :=
  ∀ (s : State) (c : Bit), s.xstate = .crit → s.tickPend = false → s.pool.wf Config.poolSize = true →
    1 ≤ s.byteCur → s.byteCur < Config.poolSize →
    ∃ t, exec (.remove c) s = .next t ∧ t.byteCur = s.byteCur - 1 ∧ t.bitCur = s.bitCur ∧
      t.pool.read t.byteCur = s.pool.read s.byteCur

/-- R81: the accumulator shift is exact while the bytes still fit. -/
def Obligations.AccumulatorShiftLosesNoBit : Prop :=
  ∀ (acc : Word) (b : Byte), acc.toNat < 2 ^ 24 →
    (shiftInByte acc b).toNat = 2 ^ 8 * acc.toNat + b.toNat

/-- The model's choice (log entry 7), from R56: a micro-step asked for outside its phase is refused. -/
def Obligations.MicroStepOutsideItsPhaseIsRefused : Prop :=
  ∀ (s : State) (c : Bit),
    (s.xstate ≠ .wait → exec .poll s = .refused .microStepNotEnabled) ∧
    (s.xstate ≠ .grant → exec .enter s = .refused .microStepNotEnabled) ∧
    (s.xstate ≠ .crit → exec (.remove c) s = .refused .microStepNotEnabled)

/-- The model's choice (log entry 8), from R31: with the cursor outside the address space a fold and a removal stop. -/
def Obligations.AccessOutsideThePoolFaults : Prop :=
  ∀ (s : State) (c : Bit), Config.poolSize ≤ s.byteCur →
    (s.tickFate = .folds → exec (.tick c) s = .fault .poolIndexOutOfRange) ∧
    (s.xstate = .crit → exec (.remove c) s = .fault .poolIndexOutOfRange)

/-- R82: with no tick in between, NEXTBYTE delivers the front byte of the queue, zero-extended, in one RESULT, and leaves the
rest of the queue and the partial byte. -/
def Obligations.NextByteDeliversTheFrontByte : Prop :=
  ∀ (s : State) (b : Byte) (q : List Byte) (x y z : Bit) (rest : List Input),
    Inv Config.params s → s.xstate = .idle → s.view.complete = b :: q →
    s.inputs = .cmd 0b010#3 :: (microSteps [x, y, z] ++ rest) →
    ∃ t, runSteps 4 s = .next t ∧ t.result = some (b.setWidth 32) ∧ t.xstate = .idle ∧ t.inputs = rest ∧
      t.view = { complete := q, part := s.view.part }

/-- R89: from a wait with a byte ready and no tick in between, POLL, ENTER and REMOVE are one atomic EXTRACT. -/
def Obligations.PollEnterRemoveIsOneExtract : Prop :=
  ∀ (s : State) (a b c : Bit) (rest : List Input), Inv Config.params s → s.xstate = .wait → 1 ≤ s.byteCur →
    s.inputs = microSteps [a, b, c] ++ rest →
    runSteps 3 s = .next ((({ s with inputs := rest, result := none } : State).afterRemoval
      (((s.pool.shiftDown).write (Config.poolSize - 1) 0x00#8).write s.byteCur 0x00#8)).accumulate (s.pool.read 0))

/-- R85, R116, R72, R73: from an empty pool, eight folds and a NEXTBYTE deliver the byte whose bit `j` is bit `j + 1` of the
LFSR xor the draw of fold `j + 1`. -/
def Obligations.EightFoldsThenNextByteDelivers : Prop :=
  ∀ (s : State) (draws ds : List Bit) (rest : List Input), Inv Config.params s → s.armed = true → s.xstate = .idle →
    s.byteCur = 0 → s.bitCur = 0#3 → draws.length = 8 → ds.length = 3 →
    s.inputs = tickWords draws ++ .cmd 0b010#3 :: (microSteps ds ++ rest) →
    ∃ t, runSteps 12 s = .next t ∧ t.inputs = rest ∧ t.xstate = .idle ∧
      t.result = some ((byteOfBits (List.zipWith (fun j c => s.lfsr.getLsbD (j + 1) ^^ c) (List.range 8) draws)).setWidth
        32) ∧
      t.view = { complete := [], part := [] }

/-! ## The machine as a whole -/

/-- R28 at RESET. -/
def Obligations.ResetMeetsTheInvariants : Prop := Inv Config.params State.reset

/-- R28 (I1 to I6), R98: from every state that meets the invariants, under every input, the step answers a next state (no
fault, no refusal) that meets them again. -/
def Obligations.EveryStepKeepsTheInvariants : Prop :=
  ∀ s : State, Inv Config.params s → ∃ t, step s = .next t ∧ Inv Config.params t

/-- R98: "Every event of 30_encoding.md rule R52 is total on every state satisfying the invariants". RESET, TICK and every
command answer in every such state, a command while busy by its having no effect (R54, log entry 5); a micro-step exists in
its phase only (R56, R59, log entry 7). `Inv` holds R102's `pend_armed` beside I1 to I6. -/
def Obligations.EnabledEventsAreTotal : Prop :=
  ∀ (s : State) (i : Instr), Inv Config.params s → (i.format = .xst → enabled i s = true) → ∃ t, exec i s = .next t

/-- R81: while a command is in progress `ACC` leaves room for the bytes still owed. (That it holds exactly the bytes removed
so far is AccumulatorHoldsTheDeliveredBytesInOrder.) -/
def Obligations.EveryStepKeepsTheAccumulatorInItsBytes : Prop :=
  ∀ s t : State, Inv Config.params s → AccFits s → step s = .next t → AccFits t

/-- R41, R103: inside the section every event but RESET and REMOVE leaves the state as it was, a TICK's `TICK_PEND`
apart. -/
def Obligations.OnlyResetAndRemoveActInsideTheSection : Prop :=
  ∀ (i : Instr) (s t : State), s.xstate = .crit → exec i s = .next t → i ≠ .reset → (∀ c, i ≠ .remove c) →
    t = s ∨ (t = { s with tickPend := true } ∧ ∃ c, i = .tick c)

/-- R103, R104: "REMOVE is always enabled in `CRIT` and always leaves it", with nothing left pending. -/
def Obligations.EverySectionEnds : Prop :=
  ∀ (s : State) (c : Bit), Inv Config.params s → s.xstate = .crit →
    ∃ t, exec (.remove c) s = .next t ∧ t.xstate ≠ .crit ∧ t.tickPend = false

/-- R41, R43, R92, R110: "except through INIT" (a command too, and not spoken of here), the commands write no register of the
producer, and neither do POLL and ENTER; REMOVE writes neither `LFSR` nor `BIT_CUR` unless it runs a pended fold. -/
def Obligations.ConsumerLeavesTheProducersRegisters : Prop :=
  ∀ (i : Instr) (s t : State), exec i s = .next t → i ≠ .reset → i ≠ .init → (∀ c, i ≠ .tick c) →
    ((∀ c, i ≠ .remove c) →
      t.pool = s.pool ∧ t.byteCur = s.byteCur ∧ t.bitCur = s.bitCur ∧ t.lfsr = s.lfsr ∧ t.tickPend = s.tickPend) ∧
    (s.tickPend = false → t.bitCur = s.bitCur ∧ t.lfsr = s.lfsr)

/-- R50: the strobe is asserted by the last REMOVE of a command only, and `rdata` is the final `ACC`. -/
def Obligations.OnlyTheLastRemoveEmitsAResult : Prop :=
  ∀ (s t : State) (v : Word), step s = .next t → t.result = some v →
    (∃ c, decode (fetch s).1 = .ok (.remove c)) ∧ t.xstate = .idle ∧ t.remain = 0#3 ∧ t.acc = v

/-- R45, R14, R73: on the queue of completed bytes and the partial byte, a fold appends one bit, appends the byte it
completes, or empties the queue at the wrap. -/
def Obligations.FoldActsOnTheQueue : Prop :=
  ∀ (s : State) (c : Bit), Inv Config.params s → s.tickFate = .folds →
    ∃ t, exec (.tick c) s = .next t ∧ t.view = s.view.fold Config.poolSize (mix (lfsrStep s.lfsr) c)

/-- R45, R79, R80, R90: REMOVE takes the front byte if there is one, keeps the partial byte, and then folds if a tick is
pending. -/
def Obligations.RemoveActsOnTheQueue : Prop :=
  ∀ (s : State) (c : Bit), Inv Config.params s → s.xstate = .crit →
    ∃ t, exec (.remove c) s = .next t ∧
      t.view = (if s.tickPend then s.view.dropFront.fold Config.poolSize (mix (lfsrStep s.lfsr) c)
        else s.view.dropFront) ∧
      ∀ b q, s.view.complete = b :: q → t.acc = (s.acc <<< 8) ||| b.setWidth 32

/-- R26: stale slots and the unwritten bits of the partial byte never matter. Two states that differ in nothing else go
through the same results and registers in every run. -/
def Obligations.StaleContentsAreNeverObserved : Prop :=
  ∀ (s : State) (m : Memory) (n : Nat), Inv Config.params s → Inv Config.params { s with pool := m } →
    ({ s with pool := m } : State).view = s.view →
    ∃ (t : State) (m' : Memory), runSteps n s = .next t ∧ runSteps n { s with pool := m } = .next { t with pool := m' } ∧
      ({ t with pool := m' } : State).view = t.view

/-- R86: in every run, wraps, RESET and INIT included, the bytes delivered are a subsequence of the bytes that were
complete and those completed since, in completion order. -/
def Obligations.DeliveredBytesAreASubsequence : Prop :=
  ∀ (s : State) (n : Nat), Inv Config.params s →
    List.Sublist (collect delivery n s) (s.view.complete ++ collect completion n s)

/-- R86: "if no wrap occurs ... it is the prefix": nothing is lost, and what is not yet delivered is in the pool. -/
def Obligations.WithoutAWrapNothingIsLost : Prop :=
  ∀ (s : State) (n : Nat), Inv Config.params s → never (fun u => restarts u || wraps u) n s = true →
    ∃ t, runSteps n s = .next t ∧
      collect delivery n s ++ t.view.complete = s.view.complete ++ collect completion n s

/-- R73, R88: whatever is removed or lost meanwhile, the completed bytes are the results of the folds, eight consecutive
ones each, least significant bit first. -/
def Obligations.EveryCompletedByteIsEightConsecutiveFolds : Prop :=
  ∀ (s : State) (n : Nat), Inv Config.params s → never restarts n s = true →
    ∃ t, runSteps n s = .next t ∧
      s.view.part ++ collect foldBit n s = (collect completion n s).flatMap bitsOfByte ++ t.view.part

/-- R24, R36, R81, R83, R84, R91: over any run inside one command, whatever folds and wraps fall between, `ACC` is the bytes
delivered, shifted in one after the other, first delivered highest, and `REMAIN` counts the bytes still owed. -/
def Obligations.AccumulatorHoldsTheDeliveredBytesInOrder : Prop :=
  ∀ (s : State) (n : Nat), Inv Config.params s → never (fun u => !u.busy || restarts u) n s = true →
    ∃ t, runSteps n s = .next t ∧
      t.acc = (collect delivery n s).foldl (fun (a : Word) (b : Byte) => (a <<< 8) ||| b.setWidth 32) s.acc ∧
      t.remain.toNat + (collect delivery n s).length = s.remain.toNat

/-- R36, R82 to R84: whatever folds and wraps fall inside the command, its RESULT is the bytes it removed, one, two or four,
the first removed most significant, zero-extended. `s1` is the state after the issue. -/
def Obligations.ResultComposesTheBytesRemoved : Prop :=
  ∀ (s s1 t : State) (n : Nat) (v : Word), Inv Config.params s → s.xstate = .idle → step s = .next s1 →
    never (fun u => !u.busy || restarts u) n s1 = true → runSteps n s1 = .next t → t.result = some v →
    (decode (fetch s).1 = .ok .nextByte →
      ∃ b1, collect delivery n s1 = [b1] ∧ v = b1.setWidth 32) ∧
    (decode (fetch s).1 = .ok .nextInt →
      ∃ b1 b2, collect delivery n s1 = [b1, b2] ∧ v = (b1 ++ b2).setWidth 32) ∧
    (decode (fetch s).1 = .ok .nextLong →
      ∃ b1 b2 b3 b4, collect delivery n s1 = [b1, b2, b3, b4] ∧ v = (b1 ++ b2 ++ b3 ++ b4).setWidth 32)

/-- R58, R73, R81 to R85: from an empty pool each command completes once eight folds and one extraction have run per byte,
and its RESULT is the bytes those folds formed, the first most significant. A block holds the eight draws of one byte and then
the `ctr0` values beside its three micro-steps. -/
def Obligations.EachCommandCompletesWithEightFoldsPerByte : Prop :=
  ∀ (s : State) (w : BitVec 3) (n : Nat) (blocks : List (List Bit × List Bit)) (rest : List Input),
    Inv Config.params s → s.armed = true → s.xstate = .idle → s.byteCur = 0 → s.bitCur = 0#3 →
    ((w = 0b010#3 ∧ n = 1) ∨ (w = 0b011#3 ∧ n = 2) ∨ (w = 0b100#3 ∧ n = 4)) →
    blocks.length = n → (∀ p ∈ blocks, p.1.length = 8 ∧ p.2.length = 3) →
    s.inputs = .cmd w :: ((blocks.flatMap fun p => tickWords p.1 ++ microSteps p.2) ++ rest) →
    ∃ t, runSteps (1 + 11 * n) s = .next t ∧ t.inputs = rest ∧ t.xstate = .idle ∧
      t.view = { complete := [], part := [] } ∧ t.lfsr = lfsrStep^[8 * n] s.lfsr ∧
      t.result = some ((blocks.zipIdx.map fun p =>
        byteOfBits (List.zipWith (fun j c => (lfsrStep^[8 * p.2 + j + 1] s.lfsr).getLsbD 0 ^^ c) (List.range 8)
          p.1.1)).foldl (fun (a : Word) (b : Byte) => (a <<< 8) ||| b.setWidth 32) 0#32)

/-- R94, R120: an extraction issued before INIT waits for ever, whatever is presented, unless RESET is. -/
def Obligations.ExtractionBeforeInitWaitsForEver : Prop :=
  ∀ (s : State) (n : Nat), Inv Config.params s → s.armed = false → s.xstate = .wait →
    s.inputs.all (fun i => !raisesReset i) = true →
    ∃ t, runSteps (n + 1) s = .next t ∧ t.xstate = .wait ∧ t.armed = false ∧ t.result = none ∧ t.remain = s.remain

/-- R85, R76: with no byte ready and too few ticks to complete one, the extraction does not complete, however long it
polls. -/
def Obligations.ExtractionBlocksUntilAByteIsComplete : Prop :=
  ∀ (s : State) (n : Nat), Inv Config.params s → s.xstate = .wait → s.byteCur = 0 →
    s.inputs.all (fun i => !raisesReset i) = true →
    s.bitCur.toNat + (s.inputs.filter raisesTick).length < 8 →
    ∃ t, runSteps (n + 1) s = .next t ∧ t.xstate = .wait ∧ t.byteCur = 0 ∧ t.result = none ∧ t.remain = s.remain

/-! ## Traces, the end of a run, and the environment -/

/-- R59: a program whose trace is admissible runs, step by step on its input words, exactly as its events in order. -/
def Obligations.AdmissibleTraceRunsAsItsWords : Prop :=
  ∀ (s : State) (p : List Instr) (rest : List Input), s.inputs = programWords p ++ rest → admissible p s = true →
    ∃ t, runSteps p.length s = .next t ∧ t.inputs = rest ∧ runTrace p { s with inputs := rest } = .next t

/-- R130: a busy state is never final; the block leaves a command only by its RESULT, which is the final `ACC`, or by RESET;
and a run that is over stays over, with no further RESULT, for every number of ticks. -/
def Obligations.RunIsOverAfterTheLastResult : Prop :=
  (∀ s : State, s.xstate ≠ .idle → s.over = false) ∧
  (∀ s t : State, s.xstate ≠ .idle → step s = .next t → t.xstate = .idle →
    decode (fetch s).1 = .ok .reset ∨ t.result = some t.acc) ∧
  ∀ (s : State) (n : Nat), Inv Config.params s → s.over = true →
    ∃ t, runSteps (n + 1) s = .next t ∧ t.over = true ∧ t.result = none

/-- R131: what breaks a duty is refused (log entry 5): a command while busy, a reserved code, an extraction before INIT, a
micro-step in IDLE. RESET and TICK are free at any point, and an environment that breaks no duty is never refused and meets
the invariants for ever. -/
def Obligations.EnvironmentIsRefusedOnlyForABrokenDuty : Prop :=
  (∀ (s : State) (w : BitVec 3), (s.xstate ≠ .idle ∨ 5 ≤ w.toNat ∨ (s.armed = false ∧ 2 ≤ w.toNat)) →
    move (.cmd w) s = .refused .dutyBroken) ∧
  (∀ (s : State) (c : Bit), s.xstate = .idle → move (.micro c) s = .refused .dutyBroken) ∧
  (∀ (s : State) (x : Input), Inv Config.params s →
    ((∃ w, x = .rst w) ∨ (∃ w, x = .evt w) ∨ (s.xstate ≠ .idle ∧ ∃ c, x = .micro c) ∨
      (s.xstate = .idle ∧ ∃ w, x = .cmd w ∧ w.toNat < 5 ∧ (s.armed = true ∨ w.toNat < 2))) →
    ∃ t, move x s = .next t ∧ step { s with inputs := [x] } = .next t) ∧
  ∀ (env : Environment) (s : State) (n : Nat), Inv Config.params s → Dutiful env s →
    ∃ t, after env n s = .next t ∧ Inv Config.params t

/-- R111, R131, D27: under `TICKS_FAIR` (log entry 20) every extraction ends with its RESULT, unless a RESET abandons it or a
wrap falls in it (R99: a consumer so slow that wraps fall between its steps can wait for ever). The first clause is of every
state with a command in progress, the second of every run of an environment that meets R131's duties. -/
def Obligations.FairTicksEndEveryExtraction : Prop :=
  (∀ (env : Environment) (s : State), Inv Config.params s → s.armed = true → s.xstate ≠ .idle → Dutiful env s →
    TicksFair env s →
    ∃ n t, after env n s = .next t ∧ ((t.xstate = .idle ∧ t.result = some t.acc) ∨ raisesReset (env n) = true ∨
      (t.xstate ≠ .idle ∧ wraps { t with inputs := [env n] } = true))) ∧
  ∀ (env : Environment) (k : Nat) (s : State), Lawful env → after env k State.reset = .next s → s.xstate ≠ .idle →
    ∃ n t, k ≤ n ∧ after env n State.reset = .next t ∧ ((t.xstate = .idle ∧ t.result = some t.acc) ∨
      raisesReset (env n) = true ∨ (t.xstate ≠ .idle ∧ wraps { t with inputs := [env n] } = true))
end

