-- ==== Sys2Proof/Laws/Memory.lean ====
section
/-! SUPPORT. The pool: read after write, read after the shift, and that every operation keeps the canonical form. -/

namespace Sys2Proof.Machine

@[simp] theorem Memory.read_nil (i : Nat) : Memory.read [] i = 0#8 := rfl

theorem Memory.read_cons (a : Nat) (v : Byte) (rest : Memory) (i : Nat) :
    Memory.read ((a, v) :: rest) i = if a = i then v else Memory.read rest i := rfl

theorem Memory.wfFrom_cons (n lo a : Nat) (v : Byte) (rest : Memory) :
    Memory.wfFrom n lo ((a, v) :: rest) = true ↔
      lo ≤ a ∧ a < n ∧ v ≠ 0#8 ∧ Memory.wfFrom n (a + 1) rest = true := by
  rw [Memory.wfFrom, Bool.and_eq_true, Bool.and_eq_true, Bool.and_eq_true, and_assoc, and_assoc,
    decide_eq_true_iff, decide_eq_true_iff, decide_eq_true_iff]
  rfl

theorem Memory.wfFrom_mono {n lo lo' : Nat} {m : Memory} (h : lo' ≤ lo) (hm : Memory.wfFrom n lo m = true) :
    Memory.wfFrom n lo' m = true := by
  cases m with
  | nil => rfl
  | cons c rest =>
    obtain ⟨a, v⟩ := c
    rw [Memory.wfFrom_cons] at hm ⊢
    exact ⟨by omega, hm.2⟩

/-- A slot below every listed address reads as unlisted. -/
theorem Memory.read_below {n lo i : Nat} {m : Memory} (hm : Memory.wfFrom n lo m = true) (hi : i < lo) :
    Memory.read m i = 0#8 := by
  induction m generalizing lo with
  | nil => rfl
  | cons c rest ih =>
    obtain ⟨a, v⟩ := c
    rw [Memory.wfFrom_cons] at hm
    rw [Memory.read_cons, if_neg (by omega)]
    exact ih hm.2.2.2 (by omega)

/-- A slot outside the address space reads as unlisted. -/
theorem Memory.read_outside {n lo i : Nat} {m : Memory} (hm : Memory.wfFrom n lo m = true) (hi : n ≤ i) :
    Memory.read m i = 0#8 := by
  induction m generalizing lo with
  | nil => rfl
  | cons c rest ih =>
    obtain ⟨a, v⟩ := c
    rw [Memory.wfFrom_cons] at hm
    rw [Memory.read_cons, if_neg (by omega)]
    exact ih hm.2.2.2

/-- Read after write: the slot written, and every other slot. -/
theorem Memory.read_writeFrom {n lo : Nat} {m : Memory} (hm : Memory.wfFrom n lo m = true) (a i : Nat) (v : Byte) :
    Memory.read (Memory.write m a v) i = if i = a then v else Memory.read m i := by
  induction m generalizing lo with
  | nil =>
    by_cases hv : v = 0#8 <;> simp [Memory.write, Memory.unlisted, hv, Memory.read_cons, eq_comm]
  | cons c rest ih =>
    obtain ⟨x, w⟩ := c
    have hm' := (Memory.wfFrom_cons ..).1 hm
    by_cases h1 : a < x
    · have hread : Memory.read ((x, w) :: rest) a = 0#8 :=
        Memory.read_below (lo := x) ((Memory.wfFrom_cons ..).2 ⟨le_refl _, hm'.2⟩) h1
      by_cases hv : v = 0#8
      · subst hv
        by_cases hi : i = a
        · simp [Memory.write, Memory.unlisted, h1, hi, hread]
        · simp [Memory.write, Memory.unlisted, h1, hi]
      · simp only [Memory.write, Memory.unlisted, h1, if_true, hv, if_false, Memory.read_cons]
        by_cases hi : i = a
        · simp [hi]
        · simp [hi, Ne.symm hi]
    · by_cases h2 : a = x
      · subst h2
        by_cases hv : v = 0#8
        · subst hv
          by_cases hi : i = a
          · simpa [Memory.write, Memory.unlisted, hi] using Memory.read_below hm'.2.2.2 (Nat.lt_succ_self a)
          · simp [Memory.write, Memory.unlisted, Memory.read_cons, hi, Ne.symm hi]
        · by_cases hi : i = a
          · simp [Memory.write, Memory.unlisted, hv, Memory.read_cons, hi]
          · simp [Memory.write, Memory.unlisted, hv, Memory.read_cons, hi, Ne.symm hi]
      · simp only [Memory.write, h1, h2, if_false, Memory.read_cons, ih hm'.2.2.2]
        by_cases hi : x = i
        · simp [hi, show ¬ i = a by omega]
        · simp [hi]

theorem Memory.read_write {n : Nat} {m : Memory} (hm : m.wf n = true) (a i : Nat) (v : Byte) :
    Memory.read (Memory.write m a v) i = if i = a then v else Memory.read m i := Memory.read_writeFrom hm a i v

/-- A write inside the address space keeps the canonical form. -/
theorem Memory.write_wfFrom {n lo : Nat} {m : Memory} (hm : Memory.wfFrom n lo m = true) {a : Nat} (v : Byte)
    (hlo : lo ≤ a) (ha : a < n) : Memory.wfFrom n lo (Memory.write m a v) = true := by
  induction m generalizing lo with
  | nil =>
    by_cases hv : v = 0#8
    · simp [Memory.write, Memory.unlisted, hv, Memory.wfFrom]
    · simp [Memory.write, Memory.unlisted, hv, Memory.wfFrom, hlo, ha]
  | cons c rest ih =>
    obtain ⟨x, w⟩ := c
    have hm' := (Memory.wfFrom_cons ..).1 hm
    by_cases h1 : a < x
    · by_cases hv : v = 0#8
      · simp only [Memory.write, Memory.unlisted, h1, hv, if_true]
        exact hm
      · simp only [Memory.write, Memory.unlisted, h1, hv, if_true, if_false]
        exact (Memory.wfFrom_cons ..).2 ⟨hlo, ha, hv, (Memory.wfFrom_cons ..).2 ⟨h1, hm'.2⟩⟩
    · by_cases h2 : a = x
      · subst h2
        by_cases hv : v = 0#8
        · simp only [Memory.write, Memory.unlisted, hv, lt_irrefl, if_true, if_false]
          exact Memory.wfFrom_mono (by omega) hm'.2.2.2
        · simp only [Memory.write, Memory.unlisted, hv, lt_irrefl, if_true, if_false]
          exact (Memory.wfFrom_cons ..).2 ⟨hlo, ha, hv, hm'.2.2.2⟩
      · simp only [Memory.write, h1, h2, if_false]
        exact (Memory.wfFrom_cons ..).2 ⟨hm'.1, hm'.2.1, hm'.2.2.1, ih hm'.2.2.2 (by omega)⟩

theorem Memory.write_wf {n : Nat} {m : Memory} (hm : m.wf n = true) {a : Nat} (v : Byte) (ha : a < n) :
    (Memory.write m a v).wf n = true := Memory.write_wfFrom hm v (Nat.zero_le a) ha

/-- The shift: every slot takes the value of the slot above it (R78 step 2). -/
@[simp] theorem Memory.read_shiftDown (m : Memory) (i : Nat) :
    Memory.read (Memory.shiftDown m) i = Memory.read m (i + 1) := by
  induction m with
  | nil => rfl
  | cons c rest ih =>
    obtain ⟨a, v⟩ := c
    cases a with
    | zero => rw [Memory.shiftDown, ih, Memory.read_cons, if_neg (by omega)]
    | succ a' => simp only [Memory.shiftDown, Memory.read_cons, ih, Nat.add_right_cancel_iff]

theorem Memory.shiftDown_wfFrom {n lo : Nat} {m : Memory} (hm : Memory.wfFrom n lo m = true) :
    Memory.wfFrom n (lo - 1) (Memory.shiftDown m) = true := by
  induction m generalizing lo with
  | nil => rfl
  | cons c rest ih =>
    obtain ⟨a, v⟩ := c
    rw [Memory.wfFrom_cons] at hm
    cases a with
    | zero =>
      have := ih hm.2.2.2
      exact Memory.wfFrom_mono (by omega) this
    | succ a' =>
      exact (Memory.wfFrom_cons ..).2 ⟨by omega, by omega, hm.2.2.1, ih hm.2.2.2⟩

/-- The shift keeps the canonical form. -/
theorem Memory.shiftDown_wf {n : Nat} {m : Memory} (hm : m.wf n = true) : (Memory.shiftDown m).wf n = true :=
  Memory.shiftDown_wfFrom hm

end Sys2Proof.Machine
end

