-- ==== Sys2Proof/Laws/State.lean ====
section
/-! SUPPORT. Every field after every named update of the state, so that no proof unfolds an update. -/

namespace Sys2Proof.Machine

variable (s : State)

/-! ### afterInput: the first input is taken (R50) -/

@[simp] theorem State.afterInput_pool (rest : List Input) : (s.afterInput rest).pool = s.pool := rfl
@[simp] theorem State.afterInput_byteCur (rest : List Input) : (s.afterInput rest).byteCur = s.byteCur := rfl
@[simp] theorem State.afterInput_bitCur (rest : List Input) : (s.afterInput rest).bitCur = s.bitCur := rfl
@[simp] theorem State.afterInput_lfsr (rest : List Input) : (s.afterInput rest).lfsr = s.lfsr := rfl
@[simp] theorem State.afterInput_armed (rest : List Input) : (s.afterInput rest).armed = s.armed := rfl
@[simp] theorem State.afterInput_tickPend (rest : List Input) : (s.afterInput rest).tickPend = s.tickPend := rfl
@[simp] theorem State.afterInput_xstate (rest : List Input) : (s.afterInput rest).xstate = s.xstate := rfl
@[simp] theorem State.afterInput_remain (rest : List Input) : (s.afterInput rest).remain = s.remain := rfl
@[simp] theorem State.afterInput_acc (rest : List Input) : (s.afterInput rest).acc = s.acc := rfl
@[simp] theorem State.afterInput_result (rest : List Input) : (s.afterInput rest).result = none := rfl
@[simp] theorem State.afterInput_inputs (rest : List Input) : (s.afterInput rest).inputs = rest := rfl
@[simp] theorem State.afterInput_drawCount (rest : List Input) : (s.afterInput rest).drawCount = s.drawCount := rfl

/-! ### afterFreeDraw: a free draw is taken (R12) -/

@[simp] theorem State.afterFreeDraw_pool : (s.afterFreeDraw).pool = s.pool := rfl
@[simp] theorem State.afterFreeDraw_byteCur : (s.afterFreeDraw).byteCur = s.byteCur := rfl
@[simp] theorem State.afterFreeDraw_bitCur : (s.afterFreeDraw).bitCur = s.bitCur := rfl
@[simp] theorem State.afterFreeDraw_lfsr : (s.afterFreeDraw).lfsr = s.lfsr := rfl
@[simp] theorem State.afterFreeDraw_armed : (s.afterFreeDraw).armed = s.armed := rfl
@[simp] theorem State.afterFreeDraw_tickPend : (s.afterFreeDraw).tickPend = s.tickPend := rfl
@[simp] theorem State.afterFreeDraw_xstate : (s.afterFreeDraw).xstate = s.xstate := rfl
@[simp] theorem State.afterFreeDraw_remain : (s.afterFreeDraw).remain = s.remain := rfl
@[simp] theorem State.afterFreeDraw_acc : (s.afterFreeDraw).acc = s.acc := rfl
@[simp] theorem State.afterFreeDraw_result : (s.afterFreeDraw).result = none := rfl
@[simp] theorem State.afterFreeDraw_inputs : (s.afterFreeDraw).inputs = s.inputs := rfl
@[simp] theorem State.afterFreeDraw_drawCount : (s.afterFreeDraw).drawCount = s.drawCount + 1 := rfl

/-! ### afterFold: the registers a fold writes (R62) -/

@[simp] theorem State.afterFold_pool (l : Word) (m : Memory) (kb : Nat × BitVec 3) : (s.afterFold l m kb).pool = m := rfl
@[simp] theorem State.afterFold_byteCur (l : Word) (m : Memory) (kb : Nat × BitVec 3) : (s.afterFold l m kb).byteCur = kb.1 := rfl
@[simp] theorem State.afterFold_bitCur (l : Word) (m : Memory) (kb : Nat × BitVec 3) : (s.afterFold l m kb).bitCur = kb.2 := rfl
@[simp] theorem State.afterFold_lfsr (l : Word) (m : Memory) (kb : Nat × BitVec 3) : (s.afterFold l m kb).lfsr = l := rfl
@[simp] theorem State.afterFold_armed (l : Word) (m : Memory) (kb : Nat × BitVec 3) : (s.afterFold l m kb).armed = s.armed := rfl
@[simp] theorem State.afterFold_tickPend (l : Word) (m : Memory) (kb : Nat × BitVec 3) : (s.afterFold l m kb).tickPend = s.tickPend := rfl
@[simp] theorem State.afterFold_xstate (l : Word) (m : Memory) (kb : Nat × BitVec 3) : (s.afterFold l m kb).xstate = s.xstate := rfl
@[simp] theorem State.afterFold_remain (l : Word) (m : Memory) (kb : Nat × BitVec 3) : (s.afterFold l m kb).remain = s.remain := rfl
@[simp] theorem State.afterFold_acc (l : Word) (m : Memory) (kb : Nat × BitVec 3) : (s.afterFold l m kb).acc = s.acc := rfl
@[simp] theorem State.afterFold_result (l : Word) (m : Memory) (kb : Nat × BitVec 3) : (s.afterFold l m kb).result = s.result := rfl
@[simp] theorem State.afterFold_inputs (l : Word) (m : Memory) (kb : Nat × BitVec 3) : (s.afterFold l m kb).inputs = s.inputs := rfl
@[simp] theorem State.afterFold_drawCount (l : Word) (m : Memory) (kb : Nat × BitVec 3) : (s.afterFold l m kb).drawCount = s.drawCount := rfl

/-! ### withPend: `TICK_PEND <- v` (R61, R80) -/

@[simp] theorem State.withPend_pool (v : Bool) : (s.withPend v).pool = s.pool := rfl
@[simp] theorem State.withPend_byteCur (v : Bool) : (s.withPend v).byteCur = s.byteCur := rfl
@[simp] theorem State.withPend_bitCur (v : Bool) : (s.withPend v).bitCur = s.bitCur := rfl
@[simp] theorem State.withPend_lfsr (v : Bool) : (s.withPend v).lfsr = s.lfsr := rfl
@[simp] theorem State.withPend_armed (v : Bool) : (s.withPend v).armed = s.armed := rfl
@[simp] theorem State.withPend_tickPend (v : Bool) : (s.withPend v).tickPend = v := rfl
@[simp] theorem State.withPend_xstate (v : Bool) : (s.withPend v).xstate = s.xstate := rfl
@[simp] theorem State.withPend_remain (v : Bool) : (s.withPend v).remain = s.remain := rfl
@[simp] theorem State.withPend_acc (v : Bool) : (s.withPend v).acc = s.acc := rfl
@[simp] theorem State.withPend_result (v : Bool) : (s.withPend v).result = s.result := rfl
@[simp] theorem State.withPend_inputs (v : Bool) : (s.withPend v).inputs = s.inputs := rfl
@[simp] theorem State.withPend_drawCount (v : Bool) : (s.withPend v).drawCount = s.drawCount := rfl

/-! ### toPhase: `XSTATE <- x` (R27) -/

@[simp] theorem State.toPhase_pool (x : XState) : (s.toPhase x).pool = s.pool := rfl
@[simp] theorem State.toPhase_byteCur (x : XState) : (s.toPhase x).byteCur = s.byteCur := rfl
@[simp] theorem State.toPhase_bitCur (x : XState) : (s.toPhase x).bitCur = s.bitCur := rfl
@[simp] theorem State.toPhase_lfsr (x : XState) : (s.toPhase x).lfsr = s.lfsr := rfl
@[simp] theorem State.toPhase_armed (x : XState) : (s.toPhase x).armed = s.armed := rfl
@[simp] theorem State.toPhase_tickPend (x : XState) : (s.toPhase x).tickPend = s.tickPend := rfl
@[simp] theorem State.toPhase_xstate (x : XState) : (s.toPhase x).xstate = x := rfl
@[simp] theorem State.toPhase_remain (x : XState) : (s.toPhase x).remain = s.remain := rfl
@[simp] theorem State.toPhase_acc (x : XState) : (s.toPhase x).acc = s.acc := rfl
@[simp] theorem State.toPhase_result (x : XState) : (s.toPhase x).result = s.result := rfl
@[simp] theorem State.toPhase_inputs (x : XState) : (s.toPhase x).inputs = s.inputs := rfl
@[simp] theorem State.toPhase_drawCount (x : XState) : (s.toPhase x).drawCount = s.drawCount := rfl

/-! ### issue: ISSUE (R75) -/

@[simp] theorem State.issue_pool (n : BitVec 3) : (s.issue n).pool = s.pool := rfl
@[simp] theorem State.issue_byteCur (n : BitVec 3) : (s.issue n).byteCur = s.byteCur := rfl
@[simp] theorem State.issue_bitCur (n : BitVec 3) : (s.issue n).bitCur = s.bitCur := rfl
@[simp] theorem State.issue_lfsr (n : BitVec 3) : (s.issue n).lfsr = s.lfsr := rfl
@[simp] theorem State.issue_armed (n : BitVec 3) : (s.issue n).armed = s.armed := rfl
@[simp] theorem State.issue_tickPend (n : BitVec 3) : (s.issue n).tickPend = s.tickPend := rfl
@[simp] theorem State.issue_xstate (n : BitVec 3) : (s.issue n).xstate = .wait := rfl
@[simp] theorem State.issue_remain (n : BitVec 3) : (s.issue n).remain = n := rfl
@[simp] theorem State.issue_acc (n : BitVec 3) : (s.issue n).acc = 0#32 := rfl
@[simp] theorem State.issue_result (n : BitVec 3) : (s.issue n).result = s.result := rfl
@[simp] theorem State.issue_inputs (n : BitVec 3) : (s.issue n).inputs = s.inputs := rfl
@[simp] theorem State.issue_drawCount (n : BitVec 3) : (s.issue n).drawCount = s.drawCount := rfl

/-! ### afterRemoval: steps 2 to 5 of R78 -/

@[simp] theorem State.afterRemoval_pool (m : Memory) : (s.afterRemoval m).pool = m := rfl
@[simp] theorem State.afterRemoval_byteCur (m : Memory) : (s.afterRemoval m).byteCur = s.byteCur - 1 := rfl
@[simp] theorem State.afterRemoval_bitCur (m : Memory) : (s.afterRemoval m).bitCur = s.bitCur := rfl
@[simp] theorem State.afterRemoval_lfsr (m : Memory) : (s.afterRemoval m).lfsr = s.lfsr := rfl
@[simp] theorem State.afterRemoval_armed (m : Memory) : (s.afterRemoval m).armed = s.armed := rfl
@[simp] theorem State.afterRemoval_tickPend (m : Memory) : (s.afterRemoval m).tickPend = s.tickPend := rfl
@[simp] theorem State.afterRemoval_xstate (m : Memory) : (s.afterRemoval m).xstate = s.xstate := rfl
@[simp] theorem State.afterRemoval_remain (m : Memory) : (s.afterRemoval m).remain = s.remain := rfl
@[simp] theorem State.afterRemoval_acc (m : Memory) : (s.afterRemoval m).acc = s.acc := rfl
@[simp] theorem State.afterRemoval_result (m : Memory) : (s.afterRemoval m).result = s.result := rfl
@[simp] theorem State.afterRemoval_inputs (m : Memory) : (s.afterRemoval m).inputs = s.inputs := rfl
@[simp] theorem State.afterRemoval_drawCount (m : Memory) : (s.afterRemoval m).drawCount = s.drawCount := rfl

/-! ### accumulate: step 6 of R78 (R81) -/

@[simp] theorem State.accumulate_pool (b : Byte) : (s.accumulate b).pool = s.pool := rfl
@[simp] theorem State.accumulate_byteCur (b : Byte) : (s.accumulate b).byteCur = s.byteCur := rfl
@[simp] theorem State.accumulate_bitCur (b : Byte) : (s.accumulate b).bitCur = s.bitCur := rfl
@[simp] theorem State.accumulate_lfsr (b : Byte) : (s.accumulate b).lfsr = s.lfsr := rfl
@[simp] theorem State.accumulate_armed (b : Byte) : (s.accumulate b).armed = s.armed := rfl
@[simp] theorem State.accumulate_tickPend (b : Byte) : (s.accumulate b).tickPend = s.tickPend := rfl
@[simp] theorem State.accumulate_xstate (b : Byte) : (s.accumulate b).xstate = if s.remain - 1#3 = 0#3 then .idle else .wait := rfl
@[simp] theorem State.accumulate_remain (b : Byte) : (s.accumulate b).remain = s.remain - 1#3 := rfl
@[simp] theorem State.accumulate_acc (b : Byte) : (s.accumulate b).acc = shiftInByte s.acc b := rfl
@[simp] theorem State.accumulate_result (b : Byte) : (s.accumulate b).result = if s.remain - 1#3 = 0#3 then some (shiftInByte s.acc b) else s.result := rfl
@[simp] theorem State.accumulate_inputs (b : Byte) : (s.accumulate b).inputs = s.inputs := rfl
@[simp] theorem State.accumulate_drawCount (b : Byte) : (s.accumulate b).drawCount = s.drawCount := rfl

/-! ### initialised: INIT (R93) -/

@[simp] theorem State.initialised_pool (p : Params) : (s.initialised p).pool = [] := rfl
@[simp] theorem State.initialised_byteCur (p : Params) : (s.initialised p).byteCur = 0 := rfl
@[simp] theorem State.initialised_bitCur (p : Params) : (s.initialised p).bitCur = 0#3 := rfl
@[simp] theorem State.initialised_lfsr (p : Params) : (s.initialised p).lfsr = p.lfsrSeed := rfl
@[simp] theorem State.initialised_armed (p : Params) : (s.initialised p).armed = true := rfl
@[simp] theorem State.initialised_tickPend (p : Params) : (s.initialised p).tickPend = false := rfl
@[simp] theorem State.initialised_xstate (p : Params) : (s.initialised p).xstate = s.xstate := rfl
@[simp] theorem State.initialised_remain (p : Params) : (s.initialised p).remain = s.remain := rfl
@[simp] theorem State.initialised_acc (p : Params) : (s.initialised p).acc = s.acc := rfl
@[simp] theorem State.initialised_result (p : Params) : (s.initialised p).result = s.result := rfl
@[simp] theorem State.initialised_inputs (p : Params) : (s.initialised p).inputs = s.inputs := rfl
@[simp] theorem State.initialised_drawCount (p : Params) : (s.initialised p).drawCount = s.drawCount := rfl

/-! ### cleared: RESET (R114) -/

@[simp] theorem State.cleared_pool (p : Params) : (s.cleared p).pool = [] := rfl
@[simp] theorem State.cleared_byteCur (p : Params) : (s.cleared p).byteCur = 0 := rfl
@[simp] theorem State.cleared_bitCur (p : Params) : (s.cleared p).bitCur = 0#3 := rfl
@[simp] theorem State.cleared_lfsr (p : Params) : (s.cleared p).lfsr = p.lfsrSeed := rfl
@[simp] theorem State.cleared_armed (p : Params) : (s.cleared p).armed = false := rfl
@[simp] theorem State.cleared_tickPend (p : Params) : (s.cleared p).tickPend = false := rfl
@[simp] theorem State.cleared_xstate (p : Params) : (s.cleared p).xstate = .idle := rfl
@[simp] theorem State.cleared_remain (p : Params) : (s.cleared p).remain = 0#3 := rfl
@[simp] theorem State.cleared_acc (p : Params) : (s.cleared p).acc = 0#32 := rfl
@[simp] theorem State.cleared_result (p : Params) : (s.cleared p).result = s.result := rfl
@[simp] theorem State.cleared_inputs (p : Params) : (s.cleared p).inputs = s.inputs := rfl
@[simp] theorem State.cleared_drawCount (p : Params) : (s.cleared p).drawCount = s.drawCount := rfl

end Sys2Proof.Machine
end

