-- ==== Sys2Proof/Laws/Ops.lean ====
section
/-! SUPPORT. What each shared operation can do, said once. -/

/-- No value of the open seed is zero (R7). -/
theorem Sys2Proof.Config.lfsrSeed_ne : Sys2Proof.Config.lfsrSeed ≠ 0#32 := by
  intro h
  have := congrArg BitVec.toNat h
  have h2 := Sys2Proof.Config.seedLessOne.isLt
  simp [Sys2Proof.Config.lfsrSeed] at this
  omega

namespace Sys2Proof.Machine

/-- The bits of a slot after a one-bit write (R34). -/
theorem setBit_getLsbD (v : Byte) (b : BitVec 3) (r : Bit) (j : Nat) (hj : j < 8) :
    (setBit v b r).getLsbD j = if j = b.toNat then r else v.getLsbD j := by
  have hb : b.toNat < 8 := b.isLt
  simp only [setBit, BitVec.getLsbD_or, BitVec.getLsbD_and, BitVec.getLsbD_not, BitVec.getLsbD_shiftLeft,
    BitVec.getLsbD_setWidth, BitVec.getLsbD_ofBool, BitVec.getLsbD_one]
  by_cases h : j = b.toNat
  · subst h; simp [hj]
  · by_cases hlt : j < b.toNat
    · simp [h, hlt, hj]
    · have : j - b.toNat ≠ 0 := by omega
      simp [h, hlt, hj, this]

theorem poolBitWrite_ok {p : Params} {m : Memory} {i : Nat} (b : BitVec 3) (r : Bit) (hi : i < p.poolSize) :
    poolBitWrite p m i b r = .ok (m.write i (setBit (m.read i) b r)) := if_pos hi

theorem poolRemove_ok {p : Params} {m : Memory} {k : Nat} (hk : k < p.poolSize) :
    poolRemove p m k = .ok (m.read 0, ((m.shiftDown).write (p.poolSize - 1) 0#8).write k 0#8) := if_pos hk

/-- The slots after a removal, of a pool in canonical form: "new `POOL[i] = old POOL[i+1]` ... new `POOL[k] = 0`; new
`POOL[N-1] = 0`" (R78). -/
theorem poolRemove_read {p : Params} {m : Memory} {k : Nat} (hm : m.wf p.poolSize = true) (hp : 0 < p.poolSize)
    (i : Nat) :
    Memory.read (((m.shiftDown).write (p.poolSize - 1) 0#8).write k 0#8) i =
      if i = k then 0#8 else if i = p.poolSize - 1 then 0#8 else m.read (i + 1) := by
  rw [Memory.read_write (Memory.write_wf (Memory.shiftDown_wf hm) _ (by omega)),
    Memory.read_write (Memory.shiftDown_wf hm), Memory.read_shiftDown]

theorem poolRemove_wf {p : Params} {m : Memory} {k : Nat} (hm : m.wf p.poolSize = true) (hk : k < p.poolSize) :
    Memory.wf p.poolSize (((m.shiftDown).write (p.poolSize - 1) 0#8).write k 0#8) = true :=
  Memory.write_wf (Memory.write_wf (Memory.shiftDown_wf hm) _ (by omega)) _ hk

/-- A fold inside the address space (R62). -/
theorem fold_ok {p : Params} (c : Bit) {s : State} (hk : s.byteCur < p.poolSize) :
    fold p c s = .ok (s.afterFold (lfsrStep s.lfsr)
      (s.pool.write s.byteCur (setBit (s.pool.read s.byteCur) s.bitCur (mix (lfsrStep s.lfsr) c)))
      (advance p.poolSize s.byteCur s.bitCur)) := by
  simp [fold, poolBitWrite_ok, hk]

/-- Everything a fold can answer. -/
theorem fold_cases {p : Params} {c : Bit} {s t : State} (h : fold p c s = .ok t) :
    s.byteCur < p.poolSize ∧ t = s.afterFold (lfsrStep s.lfsr)
      (s.pool.write s.byteCur (setBit (s.pool.read s.byteCur) s.bitCur (mix (lfsrStep s.lfsr) c)))
      (advance p.poolSize s.byteCur s.bitCur) := by
  by_cases hk : s.byteCur < p.poolSize
  · rw [fold_ok c hk] at h
    exact ⟨hk, (Except.ok.inj h).symm⟩
  · simp [fold, poolBitWrite, hk] at h

/-- The byte cursor stays inside the pool (I1 of R28). -/
theorem advance_fst_lt {n k : Nat} {b : BitVec 3} (hk : k < n) : (advance n k b).1 < n := by
  unfold advance
  split
  · exact hk
  · split <;> simp only <;> omega

/-- The exit of the critical section: nothing more, or one fold (R80). -/
theorem exitSection_cases {p : Params} {c : Bit} {s t : State} (h : exitSection p c s = .ok t) :
    (s.tickPend = false ∧ t = s) ∨ (s.tickPend = true ∧ fold p c (s.withPend false) = .ok t) := by
  unfold exitSection at h
  cases hp : s.tickPend with
  | false => simp [hp] at h; exact .inl ⟨rfl, h.symm⟩
  | true => simp [hp] at h; exact .inr ⟨rfl, h⟩

@[simp] theorem State.ready_iff (s : State) : s.ready = true ↔ 1 ≤ s.byteCur := decide_eq_true_iff

@[simp] theorem State.busy_iff (s : State) : s.busy = true ↔ s.xstate ≠ .idle := by simp [State.busy]

@[simp] theorem State.mask_iff (s : State) : s.mask = true ↔ s.xstate = .crit := by simp [State.mask]

/-- The three fates of a TICK (R61). -/
theorem State.tickFate_cases (s : State) :
    (s.armed = false ∧ s.tickFate = .ignored) ∨ (s.armed = true ∧ s.xstate = .crit ∧ s.tickFate = .held) ∨
      (s.armed = true ∧ s.xstate ≠ .crit ∧ s.tickFate = .folds) := by
  unfold State.tickFate
  cases ha : s.armed with
  | false => simp
  | true => by_cases hx : s.xstate = .crit <;> simp [State.mask, hx]

/-- Everything a TICK can do (R61). -/
theorem tick_cases {p : Params} {c : Bit} {s t : State} (h : tick p c s = .ok t) :
    (s.armed = false ∧ t = s) ∨ (s.armed = true ∧ s.xstate = .crit ∧ t = s.withPend true) ∨
      (s.armed = true ∧ s.xstate ≠ .crit ∧ fold p c s = .ok t) := by
  rcases State.tickFate_cases s with ⟨ha, hf⟩ | ⟨ha, hx, hf⟩ | ⟨ha, hx, hf⟩ <;> simp [tick, hf] at h
  · exact .inl ⟨ha, h.symm⟩
  · exact .inr (.inl ⟨ha, hx, h.symm⟩)
  · exact .inr (.inr ⟨ha, hx, h⟩)

/-- Everything REMOVE can do before its exit: remove the front byte, or nothing (R78, R79). -/
theorem remove_cases {p : Params} {c : Bit} {s t : State} (h : remove p c s = .ok t) :
    (1 ≤ s.byteCur ∧ s.byteCur < p.poolSize ∧
      exitSection p c ((s.afterRemoval (((s.pool.shiftDown).write (p.poolSize - 1) 0#8).write s.byteCur 0#8)).accumulate
        (s.pool.read 0)) = .ok t) ∨
    (s.byteCur = 0 ∧ exitSection p c (s.toPhase .wait) = .ok t) := by
  unfold remove at h
  by_cases hr : s.ready = true
  · by_cases hk : s.byteCur < p.poolSize
    · rw [if_pos hr, poolRemove_ok hk] at h
      exact .inl ⟨(State.ready_iff s).1 hr, hk, h⟩
    · simp [hr, poolRemove, hk] at h
  · rw [if_neg hr] at h
    exact .inr ⟨by simpa using hr, h⟩

/-- A command either takes its effect, in IDLE, or has none (R54). -/
theorem acceptCommand_cases {f : State → State} {s t : State} (h : acceptCommand f s = .next t) :
    (s.xstate = .idle ∧ t = f s) ∨ (s.xstate ≠ .idle ∧ t = s) := by
  unfold acceptCommand at h
  by_cases hb : s.busy = true
  · rw [if_pos hb] at h
    exact .inr ⟨(State.busy_iff s).1 hb, (Host.Outcome.next.inj h).symm⟩
  · rw [if_neg hb] at h
    exact .inl ⟨by simpa using hb, (Host.Outcome.next.inj h).symm⟩

@[simp] theorem outcome_next_iff (r : Except Fault State) (t : State) : outcome r = .next t ↔ r = .ok t := by
  cases r <;> simp [outcome]

/-- A micro-step that answers a next state was in its phase (R56). -/
theorem inPhase_cases {x : XState} {f : State → Except Fault State} {s t : State} (h : inPhase x f s = .next t) :
    s.xstate = x ∧ f s = .ok t := by
  unfold inPhase at h
  by_cases hx : s.xstate = x
  · rw [if_pos hx] at h
    exact ⟨hx, (outcome_next_iff _ _).1 h⟩
  · simp [hx] at h

end Sys2Proof.Machine
end

