-- ==== Sys2Proof/Laws/Step.lean ====
section
/-! SUPPORT. The step, its inputs, and runs. -/

namespace Sys2Proof.Machine

@[simp] theorem fetch_cons {s : State} {i : Input} {rest : List Input} (h : s.inputs = i :: rest) :
    fetch s = (inputWord s.xstate i, s.afterInput rest) := by simp [fetch, h]

@[simp] theorem fetch_nil {s : State} (h : s.inputs = []) :
    fetch s = (.xst s.xstate.code (Config.freeDraw s.drawCount), s.afterFreeDraw) := by simp [fetch, h, inputWord]

/-- Fetching changes only the outside world and the result port (R50). -/
theorem fetch_state (s : State) :
    ∃ ins n, (fetch s).2 = { s with inputs := ins, drawCount := n, result := none } := by
  cases h : s.inputs with
  | nil => exact ⟨[], s.drawCount + 1, by rw [fetch_nil h]; cases s; simp_all [State.afterFreeDraw]⟩
  | cons i rest => exact ⟨rest, s.drawCount, by rw [fetch_cons h]; rfl⟩

/-- The micro-step a phase enables (R56). -/
theorem decode_xst_code (x : XState) (c : Bit) :
    decode (.xst x.code c) =
      match x with
      | .idle => .error .noMicroStep
      | .wait => .ok .poll
      | .grant => .ok .enter
      | .crit => .ok (.remove c) := by cases x <;> rfl

/-- A step is the fetched event, or no event. -/
theorem step_cases {s : State} {o : Host.Outcome State Fault Refusal} (h : step s = o) :
    (∃ i, decode (fetch s).1 = .ok i ∧ exec i (fetch s).2 = o) ∨
      (∃ r, decode (fetch s).1 = .error r ∧ o = .next (fetch s).2) := by
  unfold step at h
  cases hd : decode (fetch s).1 with
  | ok i => rw [hd] at h; exact .inl ⟨i, rfl, h⟩
  | error r => rw [hd] at h; exact .inr ⟨r, rfl, h.symm⟩

theorem runSteps_succ {s t : State} (k : Nat) (h : step s = .next t) : runSteps (k + 1) s = runSteps k t := by
  simp [runSteps, h]

theorem collect_succ {α : Type} (f : State → Option α) {s t : State} (k : Nat) (h : step s = .next t) :
    collect f (k + 1) s = (f s).toList ++ collect f k t := by simp [collect, h]

theorem never_succ (f : State → Bool) {s t : State} (k : Nat) (h : step s = .next t) :
    never f (k + 1) s = (!f s && never f k t) := by simp [never, h]

end Sys2Proof.Machine
end

