-- ==== Sys2Proof/Laws/Environment.lean ====
section
/-! SUPPORT. Traces, the end of a run, and what the environment may present (R59, R130, R131). -/

namespace Sys2Proof.Machine

variable {s t : State} {env : Environment}

/-! ### What may be presented -/

@[simp] theorem mayPresent_rst (s : State) (w : BitVec 1) : mayPresent s (.rst w) = true := rfl

@[simp] theorem mayPresent_evt (s : State) (w : BitVec 2) : mayPresent s (.evt w) = true := rfl

@[simp] theorem mayPresent_micro (s : State) (c : Bit) : mayPresent s (.micro c) = s.busy := rfl

/-- A command: in IDLE, no reserved code, and an extraction after INIT only (R131). -/
theorem mayPresent_cmd (s : State) (w : BitVec 3) :
    mayPresent s (.cmd w) =
      (decide (s.xstate = .idle) && decide (w.toNat < 5) && (s.armed || decide (w.toNat < 2))) := by
  have table : ∀ (w : BitVec 3) (b a : Bool),
      (match decode (.cmd w) with
        | .ok i => b && i.wf && (a || !Instr.extracts i)
        | .error _ => false) = (b && decide (w.toNat < 5) && (a || decide (w.toNat < 2))) := by decide
  refine (table w (!s.busy) s.armed).trans ?_
  by_cases hx : s.xstate = .idle <;> simp [State.busy, hx]

/-- Everything an interaction can be: the step on its input, or the refusal of a broken duty. -/
theorem move_cases (x : Input) (s : State) :
    (mayPresent s x = true ∧ move x s = step { s with inputs := [x] }) ∨
      (mayPresent s x = false ∧ move x s = .refused .dutyBroken) := by
  cases h : mayPresent s x with
  | true => exact .inl ⟨rfl, if_pos h⟩
  | false => exact .inr ⟨rfl, by simp [move, h]⟩

theorem step_of_move {x : Input} (h : move x s = .next t) :
    mayPresent s x = true ∧ step { s with inputs := [x] } = .next t := by
  rcases move_cases x s with ⟨hm, he⟩ | ⟨_, he⟩
  · exact ⟨hm, he ▸ h⟩
  · rw [he] at h; cases h

theorem after_succ {n : Nat} (h : after env n s = .next t) : after env (n + 1) s = move (env n) t := by simp [after, h]

/-- The run goes on from any of its states as the run of the environment from there. -/
theorem after_add {k : Nat} (h : after env k s = .next t) (n : Nat) :
    after env (k + n) s = after (fun i => env (k + i)) n t := by
  induction n with
  | zero => exact h
  | succ n ih => rw [← Nat.add_assoc]; simp only [after]; rw [ih]

/-! ### Traces and the end of a run -/

theorem State.over_iff (s : State) :
    s.over = true ↔ s.xstate = .idle ∧ (s.inputs.all fun i => !presentsCommand i) = true := by
  simp [State.over, State.busy]

theorem runTrace_cons {i : Instr} (p : List Instr) (h : exec i { s with result := none } = .next t) :
    runTrace (i :: p) s = runTrace p t := by simp [runTrace, h]

theorem admissible_cons {i : Instr} (p : List Instr) (h : exec i { s with result := none } = .next t) :
    admissible (i :: p) s = (enabled i s && admissible p t) := by simp [admissible, h]

/-- Where an event is enabled, its input word selects it (R56, R59). -/
theorem decode_inputOf {i : Instr} (h : enabled i s = true) : decode (inputWord s.xstate (inputOf i)) = .ok i := by
  cases i with
  | poll => rw [show s.xstate = .wait by simpa [enabled] using h]; rfl
  | enter => rw [show s.xstate = .grant by simpa [enabled] using h]; rfl
  | remove c => rw [show s.xstate = .crit by simpa [enabled] using h]; rfl
  | tick c => cases c <;> rfl
  | reset => rfl
  | nop => rfl
  | init => rfl
  | nextByte => rfl
  | nextInt => rfl
  | nextLong => rfl
  | reserved5 => rfl
  | reserved6 => rfl
  | reserved7 => rfl

/-- A TICK moves the consumer no further (R110). -/
theorem tick_xstate {c : Bit} (h : exec (.tick c) s = .next t) : t.xstate = s.xstate := by
  rcases tick_cases ((outcome_next_iff _ _).1 h) with ⟨_, rfl⟩ | ⟨_, _, rfl⟩ | ⟨_, _, h⟩
  · rfl
  · rfl
  · rw [(fold_cases h).2]; rfl

end Sys2Proof.Machine
end

