-- ==== Sys2Proof/Laws/PerInstr.lean ====
section
/-! SUPPORT. Statements made once per event of R52. -/

namespace Sys2Proof.Laws.Encoding

/-- The encoder gives an event a word of the event's own format (R51 to R53). -/
def Statement (i : Instr) : Prop := (encode i).format = i.format

theorem reset : Statement .reset := rfl
theorem nop : Statement .nop := rfl
theorem init : Statement .init := rfl
theorem nextByte : Statement .nextByte := rfl
theorem nextInt : Statement .nextInt := rfl
theorem nextLong : Statement .nextLong := rfl
theorem reserved5 : Statement .reserved5 := rfl
theorem reserved6 : Statement .reserved6 := rfl
theorem reserved7 : Statement .reserved7 := rfl
theorem tick (c : Bit) : Statement (.tick c) := rfl
theorem poll : Statement .poll := rfl
theorem enter : Statement .enter := rfl
theorem remove (c : Bit) : Statement (.remove c) := rfl

end Sys2Proof.Laws.Encoding
end

