-- ==== Sys2Proof/Tests/Slice0.lean ====
section
/-! SUPPORT. The model's own tests (expected values: the tables of spec/30_encoding.md and spec/95_test_vectors.md, named
at each test), and for each obligation with hypotheses a concrete state and operands that meet them. -/

namespace Sys2Proof.Tests.Slice0

open Sys2Proof Sys2Proof.Machine

/-! ## Well-formedness: each check, and a term it refuses -/

/-- R55: the three reserved codes, as events. -/
theorem test_wf_refuses_reserved_events :
    Instr.wf .reserved5 = false ∧ Instr.wf .reserved6 = false ∧ Instr.wf .reserved7 = false := by decide

/-- R55: the three reserved codes, as inputs; 100 is not one. -/
theorem test_wf_refuses_reserved_inputs :
    Input.wf (.cmd 0b101#3) = false ∧ Input.wf (.cmd 0b110#3) = false ∧ Input.wf (.cmd 0b111#3) = false ∧
    Input.wf (.cmd 0b100#3) = true := by decide

/-- R115: a program that does not start with RESET, and the empty one. -/
theorem test_wf_refuses_program_without_reset :
    wfProgram [.cmd 0b001#3, .evt 0b10#2] = false ∧ wfProgram [.rst 0b0#1] = false ∧ wfProgram [] = false := by decide

/-- R55, R131: a program that issues a reserved code. -/
theorem test_wf_refuses_program_with_reserved_code : wfProgram [.rst 0b1#1, .cmd 0b001#3, .cmd 0b110#3] = false := by
  decide

/-- R59: the beginning of program P1 is accepted. -/
theorem test_wf_accepts_program :
    wfProgram [.rst 0b1#1, .cmd 0b001#3, .evt 0b10#2, .cmd 0b010#3, .micro false] = true := by decide

/-! ## Decoding: the words of R52, bit by bit -/

/-- R53: the reset input. -/
theorem test_decode_rst : decode (.rst 0b1#1) = .ok .reset := by rfl

/-- R52: the command port. -/
theorem test_decode_cmd :
    decode (.cmd 0b000#3) = .ok .nop ∧ decode (.cmd 0b001#3) = .ok .init ∧ decode (.cmd 0b010#3) = .ok .nextByte ∧
    decode (.cmd 0b011#3) = .ok .nextInt ∧ decode (.cmd 0b100#3) = .ok .nextLong ∧
    decode (.cmd 0b101#3) = .ok .reserved5 ∧ decode (.cmd 0b110#3) = .ok .reserved6 ∧
    decode (.cmd 0b111#3) = .ok .reserved7 := ⟨rfl, rfl, rfl, rfl, rfl, rfl, rfl, rfl⟩

/-- R53: `10` and `11` are ticks, `00` and `01` are no event. -/
theorem test_decode_evt :
    decode (.evt 0b10#2) = .ok (.tick false) ∧ decode (.evt 0b11#2) = .ok (.tick true) ∧
    decode (.evt 0b00#2) = .error .noTick ∧ decode (.evt 0b01#2) = .error .noTick := ⟨rfl, rfl, rfl, rfl⟩

/-- R52, R56: the code of the phase. -/
theorem test_decode_xst :
    decode (.xst 0b01#2 false) = .ok .poll ∧ decode (.xst 0b10#2 false) = .ok .enter ∧
    decode (.xst 0b11#2 true) = .ok (.remove true) ∧ decode (.xst 0b00#2 true) = .error .noMicroStep :=
  ⟨rfl, rfl, rfl, rfl⟩

/-- The words of spec/opcode_table.json that the host's number names unambiguously (log entry 12). -/
theorem test_table_words :
    decodeTableWord 1 0b1 = some .reset ∧ decodeTableWord 2 0b11 = some (.tick true) ∧
    decodeTableWord 2 0b01 = some .poll ∧ decodeTableWord 3 0b100 = some .nextLong ∧
    decodeTableWord 8 0b111 = some .reserved7 ∧ decodeTableWord 3 8 = none := by decide

/-! ## The operations on the vectors of spec/95_test_vectors.md -/

/-- V2.1 to V2.4, V2.8: each tap alone, and four that cancel. -/
theorem test_lfsr_taps :
    lfsrStep 0x00000001#32 = 0x80000000#32 ∧ lfsrStep 0x00000004#32 = 0x80000002#32 ∧
    lfsrStep 0x00000008#32 = 0x80000004#32 ∧ lfsrStep 0x00000200#32 = 0x80000100#32 ∧
    lfsrStep 0x0000020D#32 = 0x00000106#32 := by decide

/-- V2.9, V2.12, V2.13, V2.15, V2.16. -/
theorem test_lfsr_words :
    lfsrStep 0x80000000#32 = 0x40000000#32 ∧ lfsrStep 0xDEADBEEF#32 = 0x6F56DF77#32 ∧
    lfsrStep 0x12345678#32 = 0x091A2B3C#32 ∧ lfsrStep 0xACE1ACE1#32 = 0xD670D670#32 ∧
    lfsrStep 0xFFFFFDF2#32 = 0x7FFFFEF9#32 := by decide

/-- V3.3, V3.4, V3.5, V3.7. -/
theorem test_mix_and_bit_write :
    setBit 0x02#8 3#3 (mix 0x6DEADBEE#32 true) = 0x0A#8 ∧ setBit 0xFF#8 3#3 (mix 0x6DEADBEE#32 false) = 0xF7#8 ∧
    setBit 0x00#8 7#3 (mix 0x56DEADBE#32 true) = 0x80#8 ∧
    setBit 0xA5#8 1#3 (mix 0x2B6F56DF#32 false) = 0xA7#8 := by decide

/-- V4.3, V4.4, V4.6, V4.8, V4.10. -/
theorem test_advance :
    advance 4 1 6#3 = (1, 7#3) ∧ advance 4 1 7#3 = (2, 0#3) ∧ advance 4 3 7#3 = (0, 0#3) ∧
    advance 2 1 7#3 = (0, 0#3) ∧ advance 300 255 7#3 = (256, 0#3) := by decide

/-- The pool has one canonical form: writing the reset value removes an entry, and order does not matter. -/
theorem test_pool_canonical :
    Memory.write (Memory.write [] 2 0x56#8) 0 0x77#8 = Memory.write (Memory.write [] 0 0x77#8) 2 0x56#8 ∧
    Memory.write [(0, 0x77#8), (2, 0x56#8)] 0 0x00#8 = [(2, 0x56#8)] := by decide

/-- `N` and the seed of the vectors (95_test_vectors.md: SEED_A). -/
def vec (n : Nat) : Params := { poolSize := n, lfsrSeed := 0xDEADBEEF#32 }

/-- An armed state of a vector. -/
def st (pool : Memory) (k : Nat) (b : BitVec 3) (l : Word) (x : XState) (r : BitVec 3) (acc : Word) : State :=
  { State.reset with pool := pool, byteCur := k, bitCur := b, lfsr := l, armed := true, xstate := x, remain := r, acc := acc }

/-- TICK: V5.4, the wrap with `N = 2`. -/
theorem test_tick_wraps :
    tick (vec 2) false (st [(0, 0x77#8), (1, 0x5F#8)] 1 7#3 0x60ADBD5B#32 .idle 0#3 0#32) =
      .ok (st [(0, 0x77#8), (1, 0xDF#8)] 0 0#3 0x3056DEAD#32 .idle 0#3 0#32) := by rfl

/-- TICK: V5.8 (a fold in GRANT) and V5.6 (held in CRIT). -/
theorem test_tick_in_grant_and_crit :
    tick (vec 4) true (st [(0, 0x77#8)] 1 0#3 0x56DEADBE#32 .grant 1#3 0#32) =
      .ok (st [(0, 0x77#8)] 1 1#3 0x2B6F56DF#32 .grant 1#3 0#32) ∧
    tick (vec 4) true (st [(0, 0x77#8)] 1 0#3 0x56DEADBE#32 .crit 1#3 0#32) =
      .ok { st [(0, 0x77#8)] 1 0#3 0x56DEADBE#32 .crit 1#3 0#32 with tickPend := true } := ⟨rfl, rfl⟩

/-- REMOVE: V6.12 (stale slots), V6.11 (`k = N - 1`) and V6.15. -/
theorem test_remove_shifts :
    remove (vec 4) false (st [(0, 0xA1#8), (1, 0xEE#8), (2, 0xDD#8), (3, 0xCC#8)] 1 0#3 1#32 .crit 1#3 0#32) =
      .ok { st [(0, 0xEE#8), (2, 0xCC#8)] 0 0#3 1#32 .idle 0#3 0x000000A1#32 with result := some 0x000000A1#32 } ∧
    remove (vec 4) false (st [(0, 0xA1#8), (1, 0xB2#8), (2, 0xC3#8), (3, 0x7F#8)] 3 7#3 1#32 .crit 3#3 0x12#32) =
      .ok (st [(0, 0xB2#8), (1, 0xC3#8), (2, 0x7F#8)] 2 7#3 1#32 .wait 2#3 0x000012A1#32) ∧
    remove (vec 8) false (st [(0, 0x10#8), (1, 0x20#8), (2, 0x30#8), (3, 0x40#8), (4, 0x50#8), (5, 0x03#8), (6, 0x99#8),
        (7, 0x88#8)] 5 2#3 1#32 .crit 2#3 0x0000AABB#32) =
      .ok (st [(0, 0x20#8), (1, 0x30#8), (2, 0x40#8), (3, 0x50#8), (4, 0x03#8), (6, 0x88#8)] 4 2#3 1#32 .wait 1#3
        0x00AABB10#32) := ⟨rfl, rfl, rfl⟩

/-- REMOVE: V6.14 (a pended fold after the removal) and V6.13 (nothing to remove). -/
theorem test_remove_exit_and_empty :
    remove (vec 4) true { st [(0, 0xFF#8), (1, 0x01#8)] 1 1#3 0xDEADBEEF#32 .crit 1#3 0x00123456#32 with
        tickPend := true } =
      .ok { st [(0, 0x01#8)] 0 2#3 0x6F56DF77#32 .idle 0#3 0x123456FF#32 with result := some 0x123456FF#32 } ∧
    remove (vec 4) false (st [(0, 0xA1#8), (1, 0xB2#8), (2, 0xC3#8), (3, 0x7F#8)] 0 5#3 1#32 .crit 1#3 0#32) =
      .ok (st [(0, 0xA1#8), (1, 0xB2#8), (2, 0xC3#8), (3, 0x7F#8)] 0 5#3 1#32 .wait 1#3 0#32) := ⟨rfl, rfl⟩

/-- POLL: V6.5, V6.6. -/
theorem test_poll :
    exec .poll (st [] 0 0#3 1#32 .wait 1#3 0#32) = .next (st [] 0 0#3 1#32 .wait 1#3 0#32) ∧
    exec .poll (st [] 1 0#3 1#32 .wait 1#3 0#32) = .next (st [] 1 0#3 1#32 .grant 1#3 0#32) := ⟨rfl, rfl⟩

/-- ENTER: V6.8. -/
theorem test_enter : exec .enter (st [] 0 0#3 1#32 .grant 1#3 0#32) = .next (st [] 0 0#3 1#32 .crit 1#3 0#32) := by rfl

/-- NEXTBYTE: V6.1, V6.4. -/
theorem test_nextByte :
    exec .nextByte (st [] 0 0#3 1#32 .idle 0#3 0x00007720#32) = .next (st [] 0 0#3 1#32 .wait 1#3 0#32) ∧
    exec .nextByte (st [] 0 0#3 1#32 .wait 2#3 0x12#32) = .next (st [] 0 0#3 1#32 .wait 2#3 0x12#32) := ⟨rfl, rfl⟩

/-- NEXTINT: V6.2. -/
theorem test_nextInt :
    exec .nextInt (st [] 0 0#3 1#32 .idle 0#3 0x77#32) = .next (st [] 0 0#3 1#32 .wait 2#3 0#32) := by rfl

/-- NEXTLONG: V6.3. -/
theorem test_nextLong :
    exec .nextLong (st [] 0 0#3 1#32 .idle 0#3 0x77#32) = .next (st [] 0 0#3 1#32 .wait 4#3 0#32) := by rfl

/-- INIT: V6.24 (`ACC` stays), V6.27 (busy). -/
theorem test_init :
    (st [(0, 0xDF#8), (1, 0x56#8), (2, 0x6F#8)] 3 0#3 0x99BC3056#32 .idle 0#3 0x77#32).initialised (vec 4) =
      st [] 0 0#3 0xDEADBEEF#32 .idle 0#3 0x77#32 ∧
    exec .init (st [] 0 0#3 1#32 .wait 1#3 0#32) = .next (st [] 0 0#3 1#32 .wait 1#3 0#32) := ⟨rfl, rfl⟩

/-- RESET: V6.25. -/
theorem test_reset :
    ({ st [(0, 0xDF#8)] 1 3#3 1#32 .crit 2#3 0x12#32 with tickPend := true } : State).cleared (vec 4) =
      { State.reset with lfsr := 0xDEADBEEF#32 } := by decide

/-- NOP and the reserved codes: V6.26, R55. -/
theorem test_nop_and_reserved :
    exec .nop (st [] 0 0#3 1#32 .idle 0#3 0x77#32) = .next (st [] 0 0#3 1#32 .idle 0#3 0x77#32) ∧
    exec .reserved5 (st [] 0 0#3 1#32 .idle 0#3 0x77#32) = .next (st [] 0 0#3 1#32 .idle 0#3 0x77#32) ∧
    exec .reserved6 (st [] 0 0#3 1#32 .idle 0#3 0x77#32) = .next (st [] 0 0#3 1#32 .idle 0#3 0x77#32) ∧
    exec .reserved7 (st [] 0 0#3 1#32 .idle 0#3 0x77#32) = .next (st [] 0 0#3 1#32 .idle 0#3 0x77#32) :=
  ⟨rfl, rfl, rfl, rfl⟩

/-- P6 step 2: a TICK before INIT, as the first instruction after RESET, changes nothing. -/
theorem test_first_step_from_reset :
    step (State.reset.withFetchWord 2 0b11) = .next State.reset ∧
    step (State.reset.withFetchWord 8 0b001) = .next { State.reset with armed := true } := ⟨rfl, rfl⟩

/-! ## Traces and the environment -/

/-- The events of program P6, up to the INIT that is not accepted. -/
def p6 : List Instr := [.reset, .tick true, .nextByte, .poll, .tick false]

/-- P6: admissible up to its step 5; its step 6, INIT in WAIT, is not (R59). -/
theorem test_trace_p6 : admissible p6 State.reset = true ∧ admissible (p6 ++ [.init]) State.reset = false := ⟨rfl, rfl⟩

/-- R59: "`poll` only in WAIT; `enter` only in GRANT; `remove` only in CRIT". -/
theorem test_trace_refuses_micro_steps :
    admissible [.poll] (st [] 1 0#3 1#32 .idle 0#3 0#32) = false ∧
    admissible [.enter] (st [] 1 0#3 1#32 .wait 1#3 0#32) = false ∧
    admissible [.remove false] (st [] 1 0#3 1#32 .grant 1#3 0#32) = false := ⟨rfl, rfl, rfl⟩

/-- R59, the words of P6: `R, 11, 010, -, 10`. -/
theorem test_program_words :
    programWords p6 = [.rst 0b1#1, .evt 0b11#2, .cmd 0b010#3, .micro false, .evt 0b10#2] := by decide

/-- R130: ticks may still come; a command to come, or one in progress, is not the end. -/
theorem test_over :
    ({ State.reset with inputs := [.evt 0b10#2, .evt 0b11#2] } : State).over = true ∧
    ({ State.reset with inputs := [.evt 0b10#2, .cmd 0b000#3] } : State).over = false ∧
    (st [] 1 0#3 1#32 .wait 1#3 0#32).over = false := by decide

/-- R131: an extraction before INIT and a reserved code are refused, INIT is not. -/
theorem test_move :
    move (.cmd 0b010#3) State.reset = .refused .dutyBroken ∧ move (.cmd 0b101#3) State.reset = .refused .dutyBroken ∧
    move (.cmd 0b001#3) State.reset = .next { State.reset with armed := true } := ⟨rfl, rfl, rfl⟩

/-! ## Witnesses: the hypotheses of each obligation are met together -/

/-- A state with the byte A5 in slot 0, at any cursor and in any phase. -/
def wit (k : Nat) (b : BitVec 3) (x : XState) (r : BitVec 3) (ins : List Input) : State :=
  { st [(0, 0xA5#8)] k b 0xDEADBEEF#32 x r 0#32 with inputs := ins }

/-- The same, with a tick pending. -/
def pended (k : Nat) (b : BitVec 3) (r : BitVec 3) (ins : List Input) : State :=
  (wit k b .crit r ins).withPend true

theorem wit_wf : Memory.wf Config.poolSize [(0, 0xA5#8)] = true := by
  simp [Memory.wf, Memory.wfFrom, Memory.unlisted, Config.poolSize]

theorem wit_inv {k : Nat} {b : BitVec 3} {x : XState} {r : BitVec 3} {ins : List Input} (hk : k < Config.poolSize)
    (hx : x = .idle ↔ r = 0#3) (hr : r.toNat ≤ 4) : Inv Config.params (wit k b x r ins) :=
  { pool_wf := wit_wf, byteCur_lt := hk, lfsr_ne := show (0xDEADBEEF#32) ≠ 0#32 by decide, idle_iff := hx, remain_le := hr,
    pend_crit := fun h => absurd h Bool.false_ne_true, pend_armed := fun h => absurd h Bool.false_ne_true,
    unarmed := fun h => absurd h.symm Bool.false_ne_true }

theorem pended_inv {k : Nat} {b : BitVec 3} {r : BitVec 3} {ins : List Input} (hk : k < Config.poolSize)
    (hr : r ≠ 0#3) (h4 : r.toNat ≤ 4) : Inv Config.params (pended k b r ins) :=
  { pool_wf := wit_wf, byteCur_lt := hk, lfsr_ne := show (0xDEADBEEF#32) ≠ 0#32 by decide,
    idle_iff := ⟨fun h => absurd (show XState.crit = .idle from h) (by decide), fun h => absurd h hr⟩
    remain_le := h4, pend_crit := fun _ => rfl, pend_armed := fun _ => rfl,
    unarmed := fun h => absurd h.symm Bool.false_ne_true }

theorem one_lt : 1 < Config.poolSize := by simp [Config.poolSize]
theorem zero_lt : 0 < Config.poolSize := by simp [Config.poolSize]
theorem last_lt : Config.poolSize - 1 < Config.poolSize := by simp [Config.poolSize]
theorem one_le_last : 1 ≤ Config.poolSize - 1 := by simp [Config.poolSize]

theorem witness_InputWordsHaveOneEventEach :
    decode (.evt 0b11#2) = .ok (.tick true) ∧ (EventWord.evt 0b11#2).format ≠ .xst := ⟨rfl, by decide⟩

theorem witness_StepRunsTheDecodedEvent :
    (∃ (s : State) (x : Input) (rest : List Input) (i : Instr), s.inputs = x :: rest ∧
      decode (inputWord s.xstate x) = .ok i) ∧
    (∃ (s : State) (i : Instr), s.inputs = [] ∧ decode (.xst s.xstate.code (Config.freeDraw s.drawCount)) = .ok i) :=
  ⟨⟨wit 1 0#3 .idle 0#3 [.evt 0b11#2], _, [], .tick true, rfl, rfl⟩, ⟨wit 1 0#3 .crit 1#3 [], _, rfl, rfl⟩⟩

theorem witness_WordsOfNoEventChangeNothing :
    (∀ x ∈ [Input.rst 0b0#1, .evt 0b00#2, .evt 0b01#2, .micro true], ∃ s : State, s.inputs = [x] ∧ s.xstate = .idle) ∧
    ∃ s : State, s.inputs = [] ∧ s.xstate = .idle :=
  ⟨fun x _ => ⟨wit 0 0#3 .idle 0#3 [x], rfl, rfl⟩, ⟨wit 0 0#3 .idle 0#3 [], rfl, rfl⟩⟩

theorem witness_ResetClearsEveryRegister : (wit 1 7#3 .crit 4#3 [.rst 0b1#1]).inputs = .rst 0b1#1 :: [] := rfl

theorem witness_InitBringsTheStartingCondition :
    (wit 1 7#3 .idle 0#3 [.cmd 0b001#3]).xstate = .idle ∧
    (wit 1 7#3 .idle 0#3 [.cmd 0b001#3]).inputs = .cmd 0b001#3 :: [] := ⟨rfl, rfl⟩

theorem witness_NopChangesNothing :
    (wit 1 7#3 .idle 0#3 [.cmd 0b000#3]).xstate = .idle ∧
    (wit 1 7#3 .idle 0#3 [.cmd 0b000#3]).inputs = .cmd 0b000#3 :: [] := ⟨rfl, rfl⟩

theorem witness_CommandWhileBusyHasNoEffect :
    (wit 1 7#3 .wait 2#3 []).xstate ≠ .idle ∧ Instr.nextLong.format = .cmd := by decide

theorem witness_IssueLoadsRemainAndWaits : (wit 1 7#3 .idle 0#3 []).xstate = .idle := rfl

theorem witness_OnlyInitArmsAndOnlyResetDisarms :
    (∃ s t, exec .reset s = .next t ∧ s.armed = true ∧ t.armed = false) ∧
    ∃ s t, exec .init s = .next t ∧ s.armed = false ∧ t.armed = true :=
  ⟨⟨wit 1 0#3 .wait 1#3 [], _, rfl, rfl, rfl⟩, ⟨State.reset, _, rfl, rfl, rfl⟩⟩

theorem witness_TickFollowsItsThreeArms :
    State.reset.armed = false ∧
    ((wit 1 0#3 .crit 1#3 []).armed = true ∧ (wit 1 0#3 .crit 1#3 []).xstate = .crit) ∧
    ∀ k, k = 0 ∨ k = Config.poolSize - 1 →
      (wit k 7#3 .grant 1#3 []).armed = true ∧ (wit k 7#3 .grant 1#3 []).xstate ≠ .crit ∧
      (wit k 7#3 .grant 1#3 []).byteCur < Config.poolSize :=
  ⟨rfl, ⟨rfl, rfl⟩, fun _ h => ⟨rfl, by simp [wit, st], h.elim (· ▸ zero_lt) (· ▸ last_lt)⟩⟩

theorem witness_FoldWritesOneBitOfOneSlot :
    ∃ s : State, s.armed = true ∧ s.xstate ≠ .crit ∧ s.pool.wf Config.poolSize = true ∧ s.byteCur = Config.poolSize - 1 ∧
      s.byteCur < Config.poolSize ∧ s.bitCur = 7#3 :=
  ⟨wit (Config.poolSize - 1) 7#3 .idle 0#3 [], rfl, by simp [wit, st], wit_wf, rfl, last_lt, rfl⟩

theorem witness_FoldStepsTheLfsr :
    ∃ s : State, s.armed = true ∧ s.xstate ≠ .crit ∧ s.byteCur < Config.poolSize :=
  ⟨wit 0 0#3 .wait 1#3 [], rfl, by simp [wit, st], zero_lt⟩

theorem witness_FoldAdvancesTheCursors :
    (∃ s : State, s.armed = true ∧ s.xstate ≠ .crit ∧ s.byteCur < Config.poolSize ∧ s.bitCur.toNat = 6) ∧
    (∃ s : State, s.armed = true ∧ s.xstate ≠ .crit ∧ s.bitCur.toNat = 7 ∧ s.byteCur < Config.poolSize - 1) ∧
    ∃ s : State, s.armed = true ∧ s.xstate ≠ .crit ∧ s.byteCur < Config.poolSize ∧ s.bitCur.toNat = 7 ∧
      s.byteCur = Config.poolSize - 1 :=
  ⟨⟨wit 0 6#3 .idle 0#3 [], rfl, by simp [wit, st], zero_lt, rfl⟩,
    ⟨wit 0 7#3 .idle 0#3 [], rfl, by simp [wit, st], rfl, one_le_last⟩,
    ⟨wit (Config.poolSize - 1) 7#3 .idle 0#3 [], rfl, by simp [wit, st], last_lt, rfl, rfl⟩⟩

theorem witness_LfsrStepHasTheInverseOfTheRule : lfsrStep 0xDEADBEEF#32 = 0x6F56DF77#32 := by decide

theorem witness_LowBitsAreSeedBitsThenFeedback : 1 ≤ 1 ∧ 1 ≤ 31 ∧ 31 ≤ 31 := by decide

theorem witness_TicksInsideTheSectionMerge :
    ∃ s, Inv Config.params s ∧ s.armed = true ∧ s.xstate = .crit ∧ s.tickPend = true :=
  ⟨pended 1 0#3 4#3 [], pended_inv one_lt (by decide) (by decide), rfl, rfl, rfl⟩

theorem witness_WrapDropsEveryReadyByte :
    ∃ s, Inv Config.params s ∧ s.armed = true ∧ s.xstate ≠ .crit ∧ s.byteCur = Config.poolSize - 1 ∧ s.bitCur = 7#3 :=
  ⟨wit (Config.poolSize - 1) 7#3 .grant 4#3 [], wit_inv last_lt (by decide) (by decide), rfl, by simp [wit, st], rfl, rfl⟩

theorem witness_TicksAdvanceThePositionModuloThePool :
    ∃ s, Inv Config.params s ∧ s.tickFate = .folds ∧ s.inputs = tickWords [true, false] ++ [.micro true] :=
  ⟨wit (Config.poolSize - 1) 7#3 .wait 4#3 (tickWords [true, false] ++ [.micro true]),
    wit_inv last_lt (by decide) (by decide), rfl, rfl⟩

theorem witness_PollGrantsWhenAByteIsReady :
    (∃ s : State, s.xstate = .wait ∧ 1 ≤ s.byteCur) ∧ ∃ s : State, s.xstate = .wait ∧ s.byteCur = 0 :=
  ⟨⟨wit 1 0#3 .wait 1#3 [], rfl, le_refl 1⟩, ⟨wit 0 7#3 .wait 1#3 [], rfl, rfl⟩⟩

theorem witness_EnterTakesTheSection : ∃ s : State, s.xstate = .grant ∧ s.armed = true :=
  ⟨wit 0 0#3 .grant 1#3 [], rfl, rfl⟩

theorem witness_RemoveTakesTheFrontByte :
    (∃ s : State, s.xstate = .crit ∧ s.pool.wf Config.poolSize = true ∧ 1 ≤ s.byteCur ∧ s.byteCur < Config.poolSize ∧
      s.remain = 1#3 ∧ s.tickPend = false) ∧
    ∃ s : State, s.xstate = .crit ∧ s.pool.wf Config.poolSize = true ∧ 1 ≤ s.byteCur ∧ s.byteCur < Config.poolSize ∧
      s.byteCur = Config.poolSize - 1 ∧ s.remain = 4#3 ∧ s.tickPend = true ∧ s.armed = true :=
  ⟨⟨wit 1 3#3 .crit 1#3 [], rfl, wit_wf, le_refl 1, one_lt, rfl, rfl⟩,
    ⟨pended (Config.poolSize - 1) 7#3 4#3 [], rfl, wit_wf, one_le_last, last_lt, rfl, rfl, rfl, rfl⟩⟩

theorem witness_RemoveAtZeroGoesBackToTheWait :
    (∃ s : State, s.xstate = .crit ∧ s.byteCur = 0 ∧ s.tickPend = false) ∧
    ∃ s : State, s.xstate = .crit ∧ s.byteCur = 0 ∧ s.tickPend = true ∧ s.armed = true :=
  ⟨⟨wit 0 3#3 .crit 1#3 [], rfl, rfl, rfl⟩, ⟨pended 0 7#3 4#3 [], rfl, rfl, rfl, rfl⟩⟩

theorem witness_ExitServesThePendedTick :
    ∃ s, Inv Config.params s ∧ s.xstate = .crit ∧ s.tickPend = true :=
  ⟨pended (Config.poolSize - 1) 7#3 1#3 [], pended_inv last_lt (by decide) (by decide), rfl, rfl⟩

theorem witness_PartialByteSurvivesARemoval :
    ∃ s : State, s.xstate = .crit ∧ s.tickPend = false ∧ s.pool.wf Config.poolSize = true ∧ 1 ≤ s.byteCur ∧
      s.byteCur < Config.poolSize ∧ s.byteCur = Config.poolSize - 1 ∧ s.bitCur = 7#3 :=
  ⟨wit (Config.poolSize - 1) 7#3 .crit 1#3 [], rfl, rfl, wit_wf, one_le_last, last_lt, rfl, rfl⟩

theorem witness_AccumulatorShiftLosesNoBit : (0x00FFFFFF#32).toNat < 2 ^ 24 := by decide

theorem witness_MicroStepOutsideItsPhaseIsRefused :
    (wit 1 0#3 .idle 0#3 []).xstate ≠ .wait ∧ (wit 1 0#3 .wait 1#3 []).xstate ≠ .grant ∧
    (wit 1 0#3 .grant 1#3 []).xstate ≠ .crit := by decide

theorem witness_AccessOutsideThePoolFaults :
    (∃ s : State, Config.poolSize ≤ s.byteCur ∧ s.tickFate = .folds) ∧
    ∃ s : State, Config.poolSize ≤ s.byteCur ∧ s.xstate = .crit :=
  ⟨⟨wit Config.poolSize 0#3 .idle 0#3 [], le_refl _, rfl⟩, ⟨wit Config.poolSize 0#3 .crit 1#3 [], le_refl _, rfl⟩⟩

theorem witness_NextByteDeliversTheFrontByte :
    ∃ s, Inv Config.params s ∧ s.xstate = .idle ∧ s.view.complete = 0xA5#8 :: [] ∧
      s.inputs = .cmd 0b010#3 :: (microSteps [true, false, true] ++ []) :=
  ⟨wit 1 3#3 .idle 0#3 (.cmd 0b010#3 :: (microSteps [true, false, true] ++ [])),
    wit_inv one_lt (by decide) (by decide), rfl, rfl, rfl⟩

theorem witness_PollEnterRemoveIsOneExtract :
    ∃ s, Inv Config.params s ∧ s.xstate = .wait ∧ 1 ≤ s.byteCur ∧ s.inputs = microSteps [true, false, true] ++ [] :=
  ⟨wit (Config.poolSize - 1) 3#3 .wait 2#3 (microSteps [true, false, true] ++ []),
    wit_inv last_lt (by decide) (by decide), rfl, one_le_last, rfl⟩

theorem witness_EightFoldsThenNextByteDelivers :
    ∃ (s : State) (draws ds : List Bit), Inv Config.params s ∧ s.armed = true ∧ s.xstate = .idle ∧ s.byteCur = 0 ∧
      s.bitCur = 0#3 ∧ draws.length = 8 ∧ ds.length = 3 ∧
      s.inputs = tickWords draws ++ .cmd 0b010#3 :: (microSteps ds ++ []) :=
  ⟨wit 0 0#3 .idle 0#3 (tickWords [true, false, true, true, false, false, true, false] ++
      .cmd 0b010#3 :: (microSteps [false, false, true] ++ [])), [true, false, true, true, false, false, true, false],
    [false, false, true], wit_inv zero_lt (by decide) (by decide), rfl, rfl, rfl, rfl, rfl, rfl, rfl⟩

theorem witness_EveryStepKeepsTheInvariants : ∃ s, Inv Config.params s ∧ s.xstate = .crit ∧ s.tickPend = true :=
  ⟨pended 1 7#3 4#3 [], pended_inv one_lt (by decide) (by decide), rfl, rfl⟩

/-- Every event is enabled in a state that meets the invariants, and a command is also asked of a busy one. -/
theorem witness_EnabledEventsAreTotal (i : Instr) : ∃ s, Inv Config.params s ∧ enabled i s = true := by
  have idle : Inv Config.params (wit 1 7#3 .idle 0#3 []) := wit_inv one_lt (by decide) (by decide)
  cases i with
  | poll => exact ⟨wit 1 7#3 .wait 1#3 [], wit_inv one_lt (by decide) (by decide), rfl⟩
  | enter => exact ⟨wit 1 7#3 .grant 1#3 [], wit_inv one_lt (by decide) (by decide), rfl⟩
  | remove c => exact ⟨pended 1 7#3 1#3 [], pended_inv one_lt (by decide) (by decide), rfl⟩
  | reset => exact ⟨_, idle, rfl⟩
  | nop => exact ⟨_, idle, rfl⟩
  | init => exact ⟨_, idle, rfl⟩
  | nextByte => exact ⟨_, idle, rfl⟩
  | nextInt => exact ⟨_, idle, rfl⟩
  | nextLong => exact ⟨_, idle, rfl⟩
  | reserved5 => exact ⟨_, idle, rfl⟩
  | reserved6 => exact ⟨_, idle, rfl⟩
  | reserved7 => exact ⟨_, idle, rfl⟩
  | tick c => exact ⟨_, idle, rfl⟩

theorem witness_EveryStepKeepsTheAccumulatorInItsBytes :
    ∃ s t, Inv Config.params s ∧ AccFits s ∧ step s = .next t ∧ s.xstate = .crit :=
  ⟨{ wit 1 0#3 .crit 1#3 [.micro false] with acc := 0x00FFFFFF#32 }, _,
    wit_inv (ins := [.micro false]) one_lt (by decide) (by decide) |>.casesOn fun a b c d e f g h => ⟨a, b, c, d, e, f, g, h⟩,
    fun _ => by decide, rfl, rfl⟩

theorem witness_OnlyResetAndRemoveActInsideTheSection :
    (∃ s t, s.xstate = .crit ∧ exec (.tick true) s = .next t ∧ t = { s with tickPend := true }) ∧
    ∃ s t, s.xstate = .crit ∧ exec .init s = .next t ∧ t = s :=
  ⟨⟨wit 1 0#3 .crit 1#3 [], _, rfl, rfl, rfl⟩, ⟨wit 1 0#3 .crit 1#3 [], _, rfl, rfl, rfl⟩⟩

theorem witness_EverySectionEnds : ∃ s, Inv Config.params s ∧ s.xstate = .crit :=
  ⟨pended 0 7#3 1#3 [], pended_inv zero_lt (by decide) (by decide), rfl⟩

theorem witness_ConsumerLeavesTheProducersRegisters :
    (∃ s t, exec .poll s = .next t ∧ t ≠ s) ∧ ∃ s t, exec (.remove true) s = .next t ∧ s.tickPend = false :=
  ⟨⟨wit 1 0#3 .wait 1#3 [], _, rfl, by decide⟩, ⟨wit 1 0#3 .crit 1#3 [], _, rfl, rfl⟩⟩

theorem witness_OnlyTheLastRemoveEmitsAResult :
    ∃ s t, step s = .next t ∧ t.result = some 0x000000A5#32 :=
  ⟨wit 1 0#3 .crit 1#3 [.micro false], _, rfl, rfl⟩

theorem witness_FoldActsOnTheQueue : ∃ s, Inv Config.params s ∧ s.tickFate = .folds :=
  ⟨wit (Config.poolSize - 1) 7#3 .grant 4#3 [], wit_inv last_lt (by decide) (by decide), rfl⟩

theorem witness_RemoveActsOnTheQueue :
    ∃ s, Inv Config.params s ∧ s.xstate = .crit ∧ s.view.complete = 0xA5#8 :: [] ∧ s.tickPend = true :=
  ⟨pended 1 7#3 1#3 [], pended_inv one_lt (by decide) (by decide), rfl, rfl, rfl⟩

/-- The partial byte has three bits in both; the other five differ. -/
theorem witness_StaleContentsAreNeverObserved :
    ∃ (s : State) (m : Memory), Inv Config.params s ∧ Inv Config.params { s with pool := m } ∧
      ({ s with pool := m } : State).view = s.view ∧ m ≠ s.pool := by
  have h : Inv Config.params (wit 0 3#3 .wait 1#3 []) := wit_inv zero_lt (by decide) (by decide)
  exact ⟨wit 0 3#3 .wait 1#3 [], [(0, 0xFD#8)], h,
    ⟨by simp [Memory.wf, Memory.wfFrom, Memory.unlisted, Config.params, Config.poolSize], h.2, h.3, h.4, h.5, h.6, h.7,
      fun ha => absurd ha.symm Bool.false_ne_true⟩, by decide, by decide⟩

theorem witness_DeliveredBytesAreASubsequence : ∃ s, Inv Config.params s :=
  ⟨wit 1 7#3 .wait 4#3 [], wit_inv one_lt (by decide) (by decide)⟩

/-- A tick completes a byte and does not wrap. -/
theorem witness_WithoutAWrapNothingIsLost :
    ∃ s, Inv Config.params s ∧ never (fun u => restarts u || wraps u) 1 s = true ∧ (completion s).isSome = true :=
  ⟨wit 0 7#3 .wait 4#3 [.evt 0b11#2], wit_inv zero_lt (by decide) (by decide), rfl, rfl⟩

theorem witness_EveryCompletedByteIsEightConsecutiveFolds :
    ∃ s, Inv Config.params s ∧ never restarts 1 s = true ∧ (completion s).isSome = true :=
  ⟨wit 0 7#3 .wait 4#3 [.evt 0b11#2], wit_inv zero_lt (by decide) (by decide), rfl, rfl⟩

theorem witness_AccumulatorHoldsTheDeliveredBytesInOrder :
    ∃ s, Inv Config.params s ∧ never (fun u => !u.busy || restarts u) 1 s = true ∧ (delivery s).isSome = true :=
  ⟨wit 1 7#3 .crit 4#3 [.micro true], wit_inv one_lt (by decide) (by decide), rfl, rfl⟩

/-- From an empty pool, eight ticks and one extraction. -/
def block : List Input := tickWords (List.replicate 8 true) ++ microSteps [false, false, false]

theorem witness_ResultComposesTheBytesRemoved :
    ∀ w n, (w, n) ∈ [(0b010#3, 11), (0b011#3, 22), (0b100#3, 44)] →
      ∃ s s1 t v, Inv Config.params s ∧ s.xstate = .idle ∧ step s = .next s1 ∧
        never (fun u => !u.busy || restarts u) n s1 = true ∧ runSteps n s1 = .next t ∧ t.result = some v ∧
        (fetch s).1 = .cmd w := by
  intro w n h
  simp only [List.mem_cons, Prod.mk.injEq, List.not_mem_nil, or_false] at h
  rcases h with ⟨rfl, rfl⟩ | ⟨rfl, rfl⟩ | ⟨rfl, rfl⟩
  · exact ⟨wit 0 0#3 .idle 0#3 (.cmd 0b010#3 :: block), _, _, _, wit_inv zero_lt (by decide) (by decide), rfl, rfl, rfl,
      rfl, rfl, rfl⟩
  · exact ⟨wit 0 0#3 .idle 0#3 (.cmd 0b011#3 :: (block ++ block)), _, _, _, wit_inv zero_lt (by decide) (by decide), rfl,
      rfl, rfl, rfl, rfl, rfl⟩
  · exact ⟨wit 0 0#3 .idle 0#3 (.cmd 0b100#3 :: (block ++ block ++ block ++ block)), _, _, _,
      wit_inv zero_lt (by decide) (by decide), rfl, rfl, rfl, rfl, rfl, rfl⟩

theorem witness_EachCommandCompletesWithEightFoldsPerByte :
    ∀ w n, ((w = 0b010#3 ∧ n = 1) ∨ (w = 0b011#3 ∧ n = 2) ∨ (w = 0b100#3 ∧ n = 4)) →
      ∃ (s : State) (blocks : List (List Bit × List Bit)), Inv Config.params s ∧ s.armed = true ∧ s.xstate = .idle ∧
        s.byteCur = 0 ∧ s.bitCur = 0#3 ∧ blocks.length = n ∧ (∀ p ∈ blocks, p.1.length = 8 ∧ p.2.length = 3) ∧
        s.inputs = .cmd w :: ((blocks.flatMap fun p => tickWords p.1 ++ microSteps p.2) ++ []) :=
  fun w n _ =>
    ⟨wit 0 0#3 .idle 0#3 (.cmd w :: (((List.replicate n (List.replicate 8 true, List.replicate 3 false)).flatMap fun p =>
        tickWords p.1 ++ microSteps p.2) ++ [])), List.replicate n (List.replicate 8 true, List.replicate 3 false),
      wit_inv zero_lt (by decide) (by decide), rfl, rfl, rfl, rfl, by simp, by simp, rfl⟩

theorem witness_ExtractionBeforeInitWaitsForEver :
    ∃ s : State, Inv Config.params s ∧ s.armed = false ∧ s.xstate = .wait ∧
      s.inputs.all (fun i => !raisesReset i) = true ∧ s.inputs ≠ [] :=
  ⟨{ State.reset with xstate := .wait, remain := 1#3, inputs := [.micro true, .evt 0b11#2, .cmd 0b001#3] },
    { pool_wf := rfl, byteCur_lt := zero_lt, lfsr_ne := Config.lfsrSeed_ne, idle_iff := by simp, remain_le := by simp
      pend_crit := fun h => absurd h Bool.false_ne_true, pend_armed := fun h => absurd h Bool.false_ne_true
      unarmed := fun _ => ⟨rfl, rfl, rfl, rfl⟩ },
    rfl, rfl, rfl, by simp⟩

theorem witness_ExtractionBlocksUntilAByteIsComplete :
    ∃ s : State, Inv Config.params s ∧ s.xstate = .wait ∧ s.byteCur = 0 ∧
      s.inputs.all (fun i => !raisesReset i) = true ∧
      s.bitCur.toNat + (s.inputs.filter raisesTick).length = 7 :=
  ⟨wit 0 6#3 .wait 1#3 [.micro true, .evt 0b11#2, .micro true], wit_inv zero_lt (by decide) (by decide), rfl, rfl, rfl,
    rfl⟩

theorem witness_EnabledEventsAreTotal_busy :
    Inv Config.params (wit 1 7#3 .wait 4#3 []) ∧ (Instr.init.format = .xst → enabled .init (wit 1 7#3 .wait 4#3 []) = true) ∧
    enabled .init (wit 1 7#3 .wait 4#3 []) = false :=
  ⟨wit_inv one_lt (by decide) (by decide), fun h => absurd h (by decide), rfl⟩

theorem witness_AdmissibleTraceRunsAsItsWords :
    ∃ (s : State) (p : List Instr) (rest : List Input), s.inputs = programWords p ++ rest ∧ admissible p s = true ∧
      p.length = 6 :=
  ⟨wit 1 3#3 .idle 0#3 (programWords [.nextByte, .tick true, .poll, .enter, .tick false, .remove true] ++ [.evt 0b10#2]),
    [.nextByte, .tick true, .poll, .enter, .tick false, .remove true], [.evt 0b10#2], rfl, rfl, rfl⟩

theorem witness_RunIsOverAfterTheLastResult :
    (wit 1 0#3 .grant 1#3 []).xstate ≠ .idle ∧
    (∃ s t : State, s.xstate ≠ .idle ∧ step s = .next t ∧ t.xstate = .idle) ∧
    ∃ s, Inv Config.params s ∧ s.over = true ∧ s.inputs = [.evt 0b11#2] :=
  ⟨by decide, ⟨wit 1 0#3 .crit 1#3 [.micro false], _, by decide, rfl, rfl⟩,
    ⟨wit 1 0#3 .idle 0#3 [.evt 0b11#2], wit_inv one_lt (by decide) (by decide), rfl, rfl⟩⟩

/-- An environment that presents the words of a list and then ticks for ever. -/
def script (l : List Input) : Environment := fun n => l.getD n (.evt 0b10#2)

/-- The first `k` words of the environment break no duty. -/
def keepsDuties (env : Environment) (s : State) : Nat → Bool
  | 0 => true
  | k + 1 =>
    keepsDuties env s k &&
      match after env k s with
      | .next t => mayPresent t (env k)
      | .fault _ => false
      | .refused _ => false

theorem script_tail {l : List Input} {n : Nat} (h : l.length ≤ n) : script l n = .evt 0b10#2 := by simp [script, h]

theorem keepsDuties_lt {env : Environment} {s : State} {k n : Nat} (h : keepsDuties env s k = true) (hn : n < k) {t : State}
    (ht : after env n s = .next t) : mayPresent t (env n) = true := by
  induction k with
  | zero => omega
  | succ k ih =>
    rw [keepsDuties, Bool.and_eq_true] at h
    by_cases he : n = k
    · subst he; simpa [ht] using h.2
    · exact ih h.1 (by omega)

theorem script_dutiful {l : List Input} {s : State} (h : keepsDuties (script l) s l.length = true) :
    Dutiful (script l) s := by
  intro n t ht
  by_cases hn : n < l.length
  · exact keepsDuties_lt h hn ht
  · rw [script_tail (by omega)]; rfl

theorem script_idle {l : List Input} {s : State} {t : State} (h : after (script l) l.length s = .next t)
    (hx : t.xstate = .idle) (k : Nat) : ∀ u, after (script l) (l.length + k) s = .next u → u.xstate = .idle := by
  induction k with
  | zero => intro u hu; rw [Nat.add_zero, h] at hu; cases hu; exact hx
  | succ k ih =>
    intro u hu
    rw [← Nat.add_assoc] at hu
    cases hk : after (script l) (l.length + k) s with
    | next v =>
      rw [after_succ hk, script_tail (by omega)] at hu
      rw [tick_xstate (c := false) (step_of_move hu).2]
      exact ih v hk
    | fault f => simp [after, hk] at hu
    | refused r => simp [after, hk] at hu

/-- A script whose last word is a micro-step and which ends in IDLE is fair. -/
theorem script_fair {l : List Input} {s t : State} {c : Bit} (h : after (script l) l.length s = .next t)
    (hx : t.xstate = .idle) (hc : script l (l.length - 1) = .micro c) : TicksFair (script l) s where
  ticks n _ _ _ := ⟨n + l.length, by omega, by rw [script_tail (by omega)]; rfl⟩
  taken n u hu hb := by
    by_cases hn : n < l.length
    · exact ⟨l.length - 1, by omega, .inl ⟨c, hc⟩⟩
    · have := script_idle h hx (n - l.length) u (by rw [show l.length + (n - l.length) = n by omega]; exact hu)
      exact absurd this ((State.busy_iff u).1 hb)

/-- One extraction of a ready byte, then ticks. -/
def extraction : List Input := [.micro false, .micro true, .micro false]

/-- Program P1 with the environment's ticks going on after it. -/
def p1 : List Input := [.rst 0b1#1, .cmd 0b001#3] ++ tickWords (List.replicate 8 false) ++ .cmd 0b010#3 :: extraction

theorem p1_lawful : Lawful (script p1) where
  starts := rfl
  dutiful := script_dutiful rfl
  fair := script_fair (c := false) (t := _) rfl rfl rfl

theorem witness_EnvironmentIsRefusedOnlyForABrokenDuty :
    ((wit 1 0#3 .wait 1#3 []).xstate ≠ .idle ∧ 5 ≤ (5#3).toNat ∧ State.reset.armed = false ∧ 2 ≤ (2#3).toNat) ∧
    State.reset.xstate = .idle ∧
    (∃ s, Inv Config.params s ∧ s.xstate ≠ .idle) ∧
    (∃ s, Inv Config.params s ∧ s.xstate = .idle ∧ s.armed = true ∧ (4#3).toNat < 5 ∧ (1#3).toNat < 2) ∧
    ∃ env s, Inv Config.params s ∧ Dutiful env s :=
  ⟨⟨by decide, by decide, rfl, by decide⟩, rfl,
    ⟨wit 1 0#3 .wait 1#3 [], wit_inv one_lt (by decide) (by decide), by decide⟩,
    ⟨wit 1 0#3 .idle 0#3 [], wit_inv one_lt (by decide) (by decide), rfl, rfl, by decide, by decide⟩,
    ⟨script extraction, wit 1 0#3 .wait 1#3 [], wit_inv one_lt (by decide) (by decide), script_dutiful rfl⟩⟩

theorem witness_FairTicksEndEveryExtraction :
    (∃ env s, Inv Config.params s ∧ s.armed = true ∧ s.xstate ≠ .idle ∧ Dutiful env s ∧ TicksFair env s) ∧
    ∃ env k s, Lawful env ∧ after env k State.reset = .next s ∧ s.xstate = .wait :=
  ⟨⟨script extraction, wit 1 0#3 .wait 1#3 [], wit_inv one_lt (by decide) (by decide), rfl, by decide,
      script_dutiful rfl, script_fair (c := false) (t := _) rfl rfl rfl⟩,
    ⟨script p1, 11, _, p1_lawful, rfl, rfl⟩⟩

end Sys2Proof.Tests.Slice0
end

namespace Sys2Proof.Proofs

/-- R6: `N` is two more than a natural number. -/
theorem two_le_poolSize : 2 ≤ Config.poolSize := Nat.le_add_left 2 Config.poolSizeLessTwo

/-- Settles O7: the first part is how `N` is built, the second is the seed's law `Config.lfsrSeed_ne`. -/
theorem parametersMeetTheirConstraints : Obligations.ParametersMeetTheirConstraints :=
  ⟨two_le_poolSize, Config.lfsrSeed_ne⟩

end Sys2Proof.Proofs

/-! ## The operations on the bits of the LFSR and of a byte -/

namespace Sys2Proof.Machine

/-- R63: every bit but the highest comes from the bit above it. -/
theorem lfsrStep_getLsbD_low (s : Word) {i : Nat} (hi : i < 31) :
    (lfsrStep s).getLsbD i = s.getLsbD (i + 1) := by
  simp [lfsrStep, hi, Nat.add_comm]

/-- R63: the highest bit is the feedback. -/
theorem lfsrStep_getLsbD_high (s : Word) : (lfsrStep s).getLsbD 31 = lfsrFeedback s := by
  simp [lfsrStep]

/-- I3 is kept (R69): if the successor is zero, bits 1 to 31 are zero, so the feedback, which is zero too, is bit 0. -/
theorem lfsrStep_ne_zero {s : Word} (hs : s ≠ 0#32) : lfsrStep s ≠ 0#32 := by
  intro h
  have above (i : Nat) (hi : i < 31) : s.getLsbD (i + 1) = false := by
    rw [← lfsrStep_getLsbD_low s hi, h, BitVec.getLsbD_zero]
  have lowest : s.getLsbD 0 = false := by
    have hfb : lfsrFeedback s = false := by rw [← lfsrStep_getLsbD_high, h, BitVec.getLsbD_zero]
    rw [lfsrFeedback, above 1 (by decide), above 2 (by decide), above 8 (by decide)] at hfb
    simpa only [Bool.xor_false] using hfb
  refine hs (BitVec.eq_of_getLsbD_eq fun i hi => ?_)
  rw [BitVec.getLsbD_zero]
  cases i with
  | zero => exact lowest
  | succ j => exact above j (by omega)

/-- A byte is what its eight bits form (R33). -/
theorem byteOfBits_bitsOfByte : ∀ b : Byte, byteOfBits (bitsOfByte b) = b := by decide

/-- R34: the bits up to the one just written are the bits before it, and the one written. -/
theorem map_getLsbD_setBit (v : Byte) (b : BitVec 3) (r : Bit) :
    (List.range (b.toNat + 1)).map (setBit v b r).getLsbD = (List.range b.toNat).map v.getLsbD ++ [r] := by
  have hb : b.toNat < 8 := b.isLt
  rw [List.range_succ, List.map_append, List.map_singleton, setBit_getLsbD v b r _ hb, if_pos rfl]
  refine congrArg (· ++ [r]) (List.map_congr_left fun j hj => ?_)
  have hj : j < b.toNat := List.mem_range.1 hj
  rw [setBit_getLsbD v b r j (by omega), if_neg (by omega)]

/-! ## REMOVE before its exit -/

/-- The state after steps 1 to 6 of R78, before the exit of R80. -/
def State.extracted (p : Params) (s : State) : State :=
  (s.afterRemoval (((s.pool.shiftDown).write (p.poolSize - 1) 0#8).write s.byteCur 0#8)).accumulate (s.pool.read 0)

/-- R78: with a byte ready REMOVE is the extraction, then the exit. -/
theorem remove_of_ready {p : Params} (c : Bit) {s : State} (h1 : 1 ≤ s.byteCur) (hk : s.byteCur < p.poolSize) :
    remove p c s = exitSection p c (s.extracted p) := by
  rw [remove, if_pos ((State.ready_iff s).2 h1), poolRemove_ok hk]
  rfl

/-- R79: with no byte ready REMOVE goes back to the busy-wait through the exit. -/
theorem remove_of_empty (p : Params) (c : Bit) {s : State} (h0 : s.byteCur = 0) :
    remove p c s = exitSection p c (s.toPhase .wait) :=
  if_neg (by simp [h0])

/-- R80: the exit writes the producer's registers and `TICK_PEND` only. -/
theorem exitSection_frame {p : Params} {c : Bit} {s t : State} (h : exitSection p c s = .ok t) :
    t = { s with pool := t.pool, byteCur := t.byteCur, bitCur := t.bitCur, lfsr := t.lfsr, tickPend := false } := by
  rcases exitSection_cases h with ⟨hp, rfl⟩ | ⟨_, hf⟩
  · rw [← hp]
  · rw [(fold_cases hf).2]
    rfl

theorem exitSection_armed {p : Params} {c : Bit} {s t : State} (h : exitSection p c s = .ok t) :
    t.armed = s.armed := by rw [exitSection_frame h]

theorem exitSection_acc {p : Params} {c : Bit} {s t : State} (h : exitSection p c s = .ok t) :
    t.acc = s.acc := by rw [exitSection_frame h]

theorem exitSection_remain {p : Params} {c : Bit} {s t : State} (h : exitSection p c s = .ok t) :
    t.remain = s.remain := by rw [exitSection_frame h]

/-- R41, R80, R81: what REMOVE does to the consumer's two data registers. -/
theorem remove_acc_remain {p : Params} {c : Bit} {s t : State} (h : remove p c s = .ok t) :
    (1 ≤ s.byteCur ∧ t.acc = shiftInByte s.acc (s.pool.read 0) ∧ t.remain = s.remain - 1#3) ∨
      (s.byteCur = 0 ∧ t.acc = s.acc ∧ t.remain = s.remain) := by
  rcases remove_cases h with ⟨h1, _, he⟩ | ⟨h0, he⟩
  · exact .inl ⟨h1, by simpa using exitSection_acc he, by simpa using exitSection_remain he⟩
  · exact .inr ⟨h0, by simpa using exitSection_acc he, by simpa using exitSection_remain he⟩

theorem remove_armed {p : Params} {c : Bit} {s t : State} (h : remove p c s = .ok t) : t.armed = s.armed := by
  rcases remove_cases h with ⟨_, _, he⟩ | ⟨_, he⟩ <;> simpa using exitSection_armed he

/-- R61: a TICK writes no register of the consumer, and not `ARMED`. -/
theorem tick_frame {p : Params} {c : Bit} {s t : State} (h : tick p c s = .ok t) :
    t = { s with pool := t.pool, byteCur := t.byteCur, bitCur := t.bitCur, lfsr := t.lfsr, tickPend := t.tickPend } := by
  rcases tick_cases h with ⟨_, rfl⟩ | ⟨_, _, rfl⟩ | ⟨_, _, hf⟩
  · rfl
  · rfl
  · rw [(fold_cases hf).2]
    rfl

/-! ## POLL and ENTER -/

/-- R76: POLL writes the phase only. -/
theorem State.polled_eq (s : State) : s.polled = s.toPhase (if s.ready then .grant else s.xstate) := by
  unfold State.polled
  split <;> rfl

/-- R56, R76: a POLL that answers was in WAIT. -/
theorem poll_cases {s t : State} (h : exec .poll s = .next t) : s.xstate = .wait ∧ t = s.polled := by
  obtain ⟨hx, ht⟩ := inPhase_cases (f := fun t => .ok t.polled) h
  exact ⟨hx, (Except.ok.inj ht).symm⟩

/-- R56, R77: an ENTER that answers was in GRANT. -/
theorem enter_cases {s t : State} (h : exec .enter s = .next t) : s.xstate = .grant ∧ t = s.toPhase .crit := by
  obtain ⟨hx, ht⟩ := inPhase_cases (f := fun t => .ok (t.toPhase .crit)) h
  exact ⟨hx, (Except.ok.inj ht).symm⟩

/-! ## The fetched event -/

@[simp] theorem fetch_snd_pool (s : State) : (fetch s).2.pool = s.pool := by
  obtain ⟨_, _, h⟩ := fetch_state s; rw [h]

@[simp] theorem fetch_snd_byteCur (s : State) : (fetch s).2.byteCur = s.byteCur := by
  obtain ⟨_, _, h⟩ := fetch_state s; rw [h]

@[simp] theorem fetch_snd_xstate (s : State) : (fetch s).2.xstate = s.xstate := by
  obtain ⟨_, _, h⟩ := fetch_state s; rw [h]

@[simp] theorem fetch_snd_remain (s : State) : (fetch s).2.remain = s.remain := by
  obtain ⟨_, _, h⟩ := fetch_state s; rw [h]

@[simp] theorem fetch_snd_acc (s : State) : (fetch s).2.acc = s.acc := by
  obtain ⟨_, _, h⟩ := fetch_state s; rw [h]

theorem step_of_event {s : State} {i : Instr} (h : decode (fetch s).1 = .ok i) : step s = exec i (fetch s).2 := by
  simp [step, h]

theorem step_of_no_event {s : State} {r : Reject} (h : decode (fetch s).1 = .error r) : step s = .next (fetch s).2 := by
  simp [step, h]

/-- The word met is the word of some input, a micro-step where none is listed (R56). -/
theorem fetch_word (s : State) : ∃ x, (fetch s).1 = inputWord s.xstate x := by
  cases h : s.inputs with
  | nil => exact ⟨.micro _, by rw [fetch_nil h]; rfl⟩
  | cons x rest => exact ⟨x, by rw [fetch_cons h]⟩

/-- R51 to R53: a word selects an event of its own port only. -/
theorem format_of_decode {e : EventWord} {i : Instr} (h : decode e = .ok i) : i.format = e.format := by
  cases e with
  | rst w => simp only [decode, decodeRst] at h; split at h <;> cases h; rfl
  | cmd w => simp only [decode, decodeCmd] at h; split at h <;> cases h <;> rfl
  | evt w => simp only [decode, decodeEvt] at h; split at h <;> cases h; rfl
  | xst w c => simp only [decode, decodeXst] at h; split at h <;> cases h <;> rfl

/-- R56: a micro-step that the step takes is the one its phase enables. -/
theorem enabled_of_fetched {s : State} {i : Instr} (h : decode (fetch s).1 = .ok i) (hf : i.format = .xst) :
    enabled i (fetch s).2 = true := by
  obtain ⟨x, hx⟩ := fetch_word s
  rw [hx] at h
  cases x with
  | micro c =>
    rw [inputWord, decode_xst_code] at h
    cases hp : s.xstate <;> rw [hp] at h <;> cases h <;> simp [enabled, hp]
  | rst w => cases (format_of_decode h).symm.trans hf
  | cmd w => cases (format_of_decode h).symm.trans hf
  | evt w => cases (format_of_decode h).symm.trans hf

/-- R54: a command while busy changes nothing. -/
theorem exec_command_busy {i : Instr} {s : State} (hi : i.format = .cmd) (hx : s.xstate ≠ .idle) :
    exec i s = .next s := by
  have turnedAway (f : State → State) : acceptCommand f s = .next s := if_pos ((State.busy_iff s).2 hx)
  cases i with
  | nop => exact turnedAway id
  | init => exact turnedAway (State.initialised Config.params)
  | nextByte => exact turnedAway (State.issue 1#3)
  | nextInt => exact turnedAway (State.issue 2#3)
  | nextLong => exact turnedAway (State.issue 4#3)
  | reserved5 => exact turnedAway id
  | reserved6 => exact turnedAway id
  | reserved7 => exact turnedAway id
  | reset => cases hi
  | tick c => cases hi
  | poll => cases hi
  | enter => cases hi
  | remove c => cases hi

/-! ## The invariants of R28 -/

namespace Inv

variable {p : Params} {s : State}

/-- The launch values of RESET meet the invariants (R29, R114), whatever was there before. -/
theorem of_cleared (s : State) (hN : 0 < p.poolSize) (hseed : p.lfsrSeed ≠ 0#32) : Inv p (s.cleared p) where
  pool_wf := rfl
  byteCur_lt := hN
  lfsr_ne := hseed
  idle_iff := by simp
  remain_le := by simp
  pend_crit := by simp
  pend_armed := by simp
  unarmed _ := ⟨rfl, rfl, rfl, rfl⟩

theorem initialised (hs : Inv p s) (hseed : p.lfsrSeed ≠ 0#32) : Inv p (s.initialised p) where
  pool_wf := rfl
  byteCur_lt := Nat.zero_lt_of_lt hs.byteCur_lt
  lfsr_ne := hseed
  idle_iff := hs.idle_iff
  remain_le := hs.remain_le
  pend_crit := by simp
  pend_armed := by simp
  unarmed := by simp

/-- The invariants speak of the nine registers only. -/
theorem fetched (hs : Inv p s) : Inv p (fetch s).2 := by
  obtain ⟨_, _, h⟩ := fetch_state s
  rw [h]
  exact { hs with }

theorem issue (hs : Inv p s) (hx : s.xstate = .idle) {n : BitVec 3} (h0 : n ≠ 0#3) (h4 : n.toNat ≤ 4) :
    Inv p (s.issue n) :=
  { hs with
    idle_iff := by simp [h0]
    remain_le := h4
    pend_crit := fun hp => by cases hx.symm.trans (hs.pend_crit hp) }

/-- A change between two busy phases, with no tick pending or into CRIT. -/
theorem toPhase (hs : Inv p s) {x : XState} (hbusy : s.xstate ≠ .idle) (hx : x ≠ .idle)
    (hp : s.tickPend = true → x = .crit) : Inv p (s.toPhase x) :=
  { hs with
    idle_iff := iff_of_false hx fun h => hbusy (hs.idle_iff.2 h)
    pend_crit := hp }

theorem withPend_false (hs : Inv p s) : Inv p (s.withPend false) :=
  { hs with
    pend_crit := by simp
    pend_armed := by simp }

/-- R61, R102: a tick is held in CRIT, by an armed block. -/
theorem withPend_true (hs : Inv p s) (hx : s.xstate = .crit) (ha : s.armed = true) : Inv p (s.withPend true) :=
  { hs with
    pend_crit := fun _ => hx
    pend_armed := fun _ => ha }

/-- R62: a fold of an armed block is inside the pool and keeps the invariants. -/
theorem fold (hs : Inv p s) (ha : s.armed = true) (c : Bit) : ∃ t, fold p c s = .ok t ∧ Inv p t := by
  refine ⟨_, fold_ok c hs.byteCur_lt, ?_⟩
  exact {
    pool_wf := Memory.write_wf hs.pool_wf _ hs.byteCur_lt
    byteCur_lt := advance_fst_lt hs.byteCur_lt
    lfsr_ne := lfsrStep_ne_zero hs.lfsr_ne
    idle_iff := hs.idle_iff
    remain_le := hs.remain_le
    pend_crit := hs.pend_crit
    pend_armed := hs.pend_armed
    unarmed := fun h => by cases ha.symm.trans h }

/-- R61: each of the three arms of TICK. -/
theorem tick (hs : Inv p s) (c : Bit) : ∃ t, tick p c s = .ok t ∧ Inv p t := by
  rcases State.tickFate_cases s with ⟨_, hf⟩ | ⟨ha, hx, hf⟩ | ⟨ha, _, hf⟩ <;> rw [Machine.tick, hf]
  · exact ⟨s, rfl, hs⟩
  · exact ⟨_, rfl, hs.withPend_true hx ha⟩
  · exact hs.fold ha c

/-- R78: the extraction keeps the invariants, but for the tick that the exit still has to serve. -/
theorem extracted (hs : Inv p s) (hx : s.xstate = .crit) (h1 : 1 ≤ s.byteCur) :
    Inv p ((s.extracted p).withPend false) where
  pool_wf := poolRemove_wf hs.pool_wf hs.byteCur_lt
  byteCur_lt := Nat.lt_of_le_of_lt (Nat.sub_le _ _) hs.byteCur_lt
  lfsr_ne := hs.lfsr_ne
  idle_iff := by by_cases h : s.remain - 1#3 = 0#3 <;> simp [State.extracted, h]
  remain_le := by
    have hr : s.remain ≠ 0#3 := fun h => by cases hx.symm.trans (hs.idle_iff.2 h)
    have h4 := hs.remain_le
    change (s.remain - 1#3).toNat ≤ 4
    bv_omega
  pend_crit := by simp
  pend_armed := by simp
  unarmed ha := by
    have h0 := (hs.unarmed ha).1
    omega

/-- R80: the exit of a section whose tick, if one is pending, is an armed block's. -/
theorem exitSection (hs : Inv p (s.withPend false)) (ha : s.tickPend = true → s.armed = true) (c : Bit) :
    ∃ t, exitSection p c s = .ok t ∧ Inv p t := by
  cases hp : s.tickPend with
  | false =>
    have same : s.withPend false = s := by rw [← hp]; rfl
    exact ⟨s, by simp [Machine.exitSection, hp], same ▸ hs⟩
  | true =>
    obtain ⟨t, ht, hi⟩ := hs.fold (ha hp) c
    exact ⟨t, by simp [Machine.exitSection, hp, ht], hi⟩

/-- R103: REMOVE always answers, with a byte ready or without. -/
theorem remove (hs : Inv p s) (hx : s.xstate = .crit) (c : Bit) : ∃ t, remove p c s = .ok t ∧ Inv p t := by
  rcases Nat.eq_zero_or_pos s.byteCur with h0 | h1
  · rw [remove_of_empty p c h0]
    refine exitSection (s := s.toPhase .wait) ?_ hs.pend_armed c
    exact hs.withPend_false.toPhase (by simp [hx]) (by simp) (by simp)
  · rw [remove_of_ready c h1 hs.byteCur_lt]
    exact exitSection (hs.extracted hx h1) hs.pend_armed c

/-- R54: a command keeps the invariants if its effect in IDLE does. -/
theorem acceptCommand (hs : Inv p s) {f : State → State} (hf : s.xstate = .idle → Inv p (f s)) :
    ∃ t, acceptCommand f s = .next t ∧ Inv p t := by
  by_cases hx : s.xstate = .idle
  · exact ⟨f s, by simp [Machine.acceptCommand, State.busy, hx], hf hx⟩
  · exact ⟨s, by simp [Machine.acceptCommand, State.busy, hx], hs⟩

end Inv

/-- R98: every event answers a next state that meets the invariants, a micro-step in its phase. -/
theorem exec_keeps_inv {s : State} {i : Instr} (hs : Inv Config.params s)
    (hi : i.format = .xst → enabled i s = true) : ∃ t, exec i s = .next t ∧ Inv Config.params t := by
  have lift {r : Except Fault State} (h : ∃ t, r = .ok t ∧ Inv Config.params t) :
      ∃ t, outcome r = .next t ∧ Inv Config.params t := by
    obtain ⟨t, rfl, ht⟩ := h
    exact ⟨t, rfl, ht⟩
  cases i with
  | reset => exact ⟨_, rfl, Inv.of_cleared s (Nat.zero_lt_of_lt hs.byteCur_lt) Config.lfsrSeed_ne⟩
  | nop => exact hs.acceptCommand fun _ => hs
  | init => exact hs.acceptCommand fun _ => hs.initialised Config.lfsrSeed_ne
  | nextByte => exact hs.acceptCommand fun hx => hs.issue hx (by decide) (by decide)
  | nextInt => exact hs.acceptCommand fun hx => hs.issue hx (by decide) (by decide)
  | nextLong => exact hs.acceptCommand fun hx => hs.issue hx (by decide) (by decide)
  | reserved5 => exact hs.acceptCommand fun _ => hs
  | reserved6 => exact hs.acceptCommand fun _ => hs
  | reserved7 => exact hs.acceptCommand fun _ => hs
  | tick c => exact lift (hs.tick c)
  | poll =>
    have hx : s.xstate = .wait := by simpa [enabled] using hi rfl
    have unpended : s.tickPend = true → XState.grant = .crit := fun hp => by cases hx.symm.trans (hs.pend_crit hp)
    refine ⟨s.polled, if_pos hx, ?_⟩
    unfold State.polled
    split
    · exact hs.toPhase (by simp [hx]) (by decide) unpended
    · exact hs
  | enter =>
    have hx : s.xstate = .grant := by simpa [enabled] using hi rfl
    exact ⟨_, if_pos hx, hs.toPhase (by simp [hx]) (by decide) fun _ => rfl⟩
  | remove c =>
    have hx : s.xstate = .crit := by simpa [enabled] using hi rfl
    obtain ⟨t, ht, hinv⟩ := lift (hs.remove hx c)
    exact ⟨t, (if_pos hx).trans ht, hinv⟩

/-- R28, R98: the step answers a next state that meets the invariants. -/
theorem step_keeps_inv {s : State} (hs : Inv Config.params s) : ∃ t, step s = .next t ∧ Inv Config.params t := by
  cases hd : decode (fetch s).1 with
  | ok i =>
    rw [step_of_event hd]
    exact exec_keeps_inv hs.fetched (enabled_of_fetched hd)
  | error r => exact ⟨_, step_of_no_event hd, hs.fetched⟩

/-! ## The pool as a queue (R45) -/

@[simp] theorem State.length_view_complete (s : State) : s.view.complete.length = s.byteCur := by simp [State.view]

@[simp] theorem State.length_view_part (s : State) : s.view.part.length = s.bitCur.toNat := by simp [State.view]

/-- The front byte of the queue is slot 0 (R45). -/
theorem State.view_complete_head? {s : State} (h1 : 1 ≤ s.byteCur) : s.view.complete.head? = some (s.pool.read 0) := by
  obtain ⟨k, hk⟩ := Nat.exists_eq_add_of_le' h1
  simp [State.view, hk, List.range_succ_eq_map]

/-- R45, R73, R74: a fold appends one bit, appends the byte it completes, or empties the queue. -/
theorem view_fold {p : Params} {c : Bit} {s t : State} (hm : s.pool.wf p.poolSize = true) (h : fold p c s = .ok t) :
    t.view = s.view.fold p.poolSize (mix (lfsrStep s.lfsr) c) := by
  obtain ⟨hk, rfl⟩ := fold_cases h
  generalize mix (lfsrStep s.lfsr) c = r
  have slots (i : Nat) := Memory.read_write hm s.byteCur i (setBit (s.pool.read s.byteCur) s.bitCur r)
  have kept : (List.range s.byteCur).map
      (s.pool.write s.byteCur (setBit (s.pool.read s.byteCur) s.bitCur r)).read = s.view.complete :=
    List.map_congr_left fun i hi => by rw [slots, if_neg (Nat.ne_of_lt (List.mem_range.1 hi))]
  have bits := map_getLsbD_setBit (s.pool.read s.byteCur) s.bitCur r
  by_cases h7 : s.bitCur.toNat < 7
  · -- the byte is not complete
    have hb : (s.bitCur + 1#3).toNat = s.bitCur.toNat + 1 := by bv_omega
    simp [State.view, View.fold, advance, h7, hb, slots, bits, kept]
  · have hb : s.bitCur = 7#3 := by bv_omega
    have whole : s.view.part ++ [r] = bitsOfByte (setBit (s.pool.read s.byteCur) s.bitCur r) := by
      have h8 : s.bitCur.toNat + 1 = 8 := by simp [hb]
      exact bits.symm.trans (congrArg (List.map _ <| List.range ·) h8)
    by_cases hN : s.byteCur < p.poolSize - 1
    · -- the byte joins the queue
      have hc : s.byteCur + 1 < p.poolSize := by omega
      have appended : s.view.fold p.poolSize r =
          { complete := s.view.complete ++ [setBit (s.pool.read s.byteCur) s.bitCur r], part := [] } := by
        simp [View.fold, h7, hc, whole, byteOfBits_bitsOfByte]
      rw [appended]
      simp [State.view, advance, h7, hN, List.range_succ, slots, kept]
    · -- the wrap
      have hc : ¬ s.byteCur + 1 < p.poolSize := by omega
      simp [State.view, View.fold, advance, h7, hN, hc]

/-- R45, R78, R90: the extraction takes the front byte and keeps the partial byte. -/
theorem view_extracted {p : Params} {s : State} (hm : s.pool.wf p.poolSize = true) (h1 : 1 ≤ s.byteCur)
    (hk : s.byteCur < p.poolSize) : (s.extracted p).view = s.view.dropFront := by
  have slots (i : Nat) (hi : i < s.byteCur) : (s.extracted p).pool.read i = s.pool.read (i + 1) := by
    refine (poolRemove_read hm (by omega) i).trans ?_
    rw [if_neg (by omega), if_neg (by omega)]
  have complete : (List.range (s.byteCur - 1)).map (s.extracted p).pool.read = s.view.complete.tail := by
    obtain ⟨k, hk'⟩ := Nat.exists_eq_add_of_le' h1
    rw [State.view, hk', List.range_succ_eq_map, List.map_cons, List.tail_cons, List.map_map]
    exact List.map_congr_left fun i hi => slots i (by have := List.mem_range.1 hi; omega)
  have back : (s.extracted p).pool.read (s.byteCur - 1) = s.pool.read s.byteCur := by
    rw [slots _ (by omega), Nat.sub_add_cancel h1]
  exact congrArg₂ View.mk complete (congrArg (fun b : Byte => (List.range s.bitCur.toNat).map b.getLsbD) back)

/-! ## States that differ in stale pool contents only (R26) -/

/-- `s'` is `s` with another pool whose completed bytes and written bits are the same (R26). -/
def Alike (s s' : State) : Prop := ∃ m, s' = { s with pool := m } ∧ s'.view = s.view

namespace Alike

variable {p : Params} {s s' t t' : State} {c : Bit}

/-- The next event is the same, and it meets states that are alike. -/
theorem fetch (h : Alike s s') : (fetch s').1 = (fetch s).1 ∧ Alike (fetch s).2 (fetch s').2 := by
  have hsame : s'.inputs = s.inputs := by obtain ⟨m, rfl, _⟩ := h; rfl
  cases hin : s.inputs with
  | nil =>
    rw [fetch_nil hin, fetch_nil (hsame.trans hin)]
    obtain ⟨m, rfl, hv⟩ := h
    exact ⟨rfl, m, rfl, hv⟩
  | cons x rest =>
    rw [fetch_cons hin, fetch_cons (hsame.trans hin)]
    obtain ⟨m, rfl, hv⟩ := h
    exact ⟨rfl, m, rfl, hv⟩

/-- The front byte is no stale content. -/
theorem front (h : Alike s s') (h1 : 1 ≤ s.byteCur) : s'.pool.read 0 = s.pool.read 0 := by
  obtain ⟨m, rfl, hv⟩ := h
  exact Option.some.inj <| calc
    some (m.read 0) = ({ s with pool := m } : State).view.complete.head? :=
      (State.view_complete_head? (s := { s with pool := m }) h1).symm
    _ = s.view.complete.head? := by rw [hv]
    _ = some (s.pool.read 0) := State.view_complete_head? h1

/-- The queue after a fold depends on the queue and the new bit only (R45). -/
theorem fold (h : Alike s s') (hm : s.pool.wf p.poolSize = true) (hm' : s'.pool.wf p.poolSize = true)
    (ht : fold p c s = .ok t) (ht' : fold p c s' = .ok t') : Alike t t' := by
  obtain ⟨m, rfl, hv⟩ := h
  refine ⟨t'.pool, ?_, ?_⟩
  · rw [(fold_cases ht).2, (fold_cases ht').2]
    rfl
  · rw [view_fold hm ht, view_fold hm' ht', hv]

theorem withPend (h : Alike s s') (v : Bool) : Alike (s.withPend v) (s'.withPend v) := by
  obtain ⟨m, rfl, hv⟩ := h
  exact ⟨m, rfl, hv⟩

theorem toPhase (h : Alike s s') (x : XState) : Alike (s.toPhase x) (s'.toPhase x) := by
  obtain ⟨m, rfl, hv⟩ := h
  exact ⟨m, rfl, hv⟩

theorem issue (h : Alike s s') (n : BitVec 3) : Alike (s.issue n) (s'.issue n) := by
  obtain ⟨m, rfl, hv⟩ := h
  exact ⟨m, rfl, hv⟩

theorem polled (h : Alike s s') : Alike s.polled s'.polled := by
  have hphase : (if s'.ready then .grant else s'.xstate) = if s.ready then XState.grant else s.xstate := by
    obtain ⟨m, rfl, _⟩ := h; rfl
  rw [State.polled_eq, State.polled_eq, hphase]
  exact h.toPhase _

theorem initialised (h : Alike s s') : Alike (s.initialised p) (s'.initialised p) := by
  obtain ⟨m, rfl, _⟩ := h
  exact ⟨[], rfl, rfl⟩

theorem cleared (h : Alike s s') : Alike (s.cleared p) (s'.cleared p) := by
  obtain ⟨m, rfl, _⟩ := h
  exact ⟨[], rfl, rfl⟩

theorem tick (h : Alike s s') (hm : s.pool.wf p.poolSize = true) (hm' : s'.pool.wf p.poolSize = true)
    (ht : tick p c s = .ok t) (ht' : tick p c s' = .ok t') : Alike t t' := by
  have hfate : s'.tickFate = s.tickFate := by obtain ⟨m, rfl, _⟩ := h; rfl
  unfold Machine.tick at ht ht'
  rw [hfate] at ht'
  cases hf : s.tickFate <;> rw [hf] at ht ht'
  case ignored => cases ht; cases ht'; exact h
  case held => cases ht; cases ht'; exact h.withPend true
  case folds => exact h.fold hm hm' ht ht'

theorem exitSection (h : Alike s s') (hm : s.pool.wf p.poolSize = true) (hm' : s'.pool.wf p.poolSize = true)
    (ht : exitSection p c s = .ok t) (ht' : exitSection p c s' = .ok t') : Alike t t' := by
  have hp : s'.tickPend = s.tickPend := by obtain ⟨m, rfl, _⟩ := h; rfl
  rcases exitSection_cases ht with ⟨h0, rfl⟩ | ⟨h0, hf⟩ <;> rcases exitSection_cases ht' with ⟨h0', rfl⟩ | ⟨h0', hf'⟩
  · exact h
  · cases h0.symm.trans (hp.symm.trans h0')
  · cases h0.symm.trans (hp.symm.trans h0')
  · exact (h.withPend false).fold hm hm' hf hf'

/-- R78: the byte extracted is the front of the queue, and the rest of the queue depends on the queue only. -/
theorem extracted (h : Alike s s') (hm : s.pool.wf p.poolSize = true) (hm' : s'.pool.wf p.poolSize = true)
    (h1 : 1 ≤ s.byteCur) (hk : s.byteCur < p.poolSize) : Alike (s.extracted p) (s'.extracted p) := by
  have hfront := h.front h1
  obtain ⟨m, rfl, hv⟩ := h
  refine ⟨(State.extracted p { s with pool := m }).pool, ?_, ?_⟩
  · unfold State.extracted
    rw [hfront]
    rfl
  · rw [view_extracted hm h1 hk, view_extracted hm' h1 hk, hv]

theorem remove (h : Alike s s') (hm : s.pool.wf p.poolSize = true) (hm' : s'.pool.wf p.poolSize = true)
    (ht : remove p c s = .ok t) (ht' : remove p c s' = .ok t') : Alike t t' := by
  have hb : s'.byteCur = s.byteCur := by obtain ⟨m, rfl, _⟩ := h; rfl
  rcases remove_cases ht with ⟨h1, hk, he⟩ | ⟨h0, he⟩ <;> rcases remove_cases ht' with ⟨h1', hk', he'⟩ | ⟨h0', he'⟩
  · exact (h.extracted hm hm' h1 hk).exitSection (poolRemove_wf hm hk) (poolRemove_wf hm' hk') he he'
  · omega
  · omega
  · exact (h.toPhase .wait).exitSection hm hm' he he'

/-- R54: a command keeps two states alike if its effect does. -/
theorem acceptCommand (h : Alike s s') {f : State → State} (hf : Alike (f s) (f s'))
    (ht : acceptCommand f s = .next t) (ht' : acceptCommand f s' = .next t') : Alike t t' := by
  have hx : s'.xstate = s.xstate := by obtain ⟨m, rfl, _⟩ := h; rfl
  rcases acceptCommand_cases ht with ⟨h0, rfl⟩ | ⟨h0, rfl⟩ <;>
    rcases acceptCommand_cases ht' with ⟨h0', rfl⟩ | ⟨h0', rfl⟩
  · exact hf
  · exact absurd (hx.trans h0) h0'
  · exact absurd (hx.symm.trans h0') h0
  · exact h

/-- Every event takes two states that are alike to two that are. -/
theorem exec {i : Instr} (h : Alike s s') (hm : s.pool.wf Config.poolSize = true)
    (hm' : s'.pool.wf Config.poolSize = true) (ht : exec i s = .next t) (ht' : exec i s' = .next t') : Alike t t' := by
  cases i with
  | reset => cases ht; cases ht'; exact h.cleared
  | nop => exact h.acceptCommand h ht ht'
  | init => exact h.acceptCommand h.initialised ht ht'
  | nextByte => exact h.acceptCommand (h.issue 1#3) ht ht'
  | nextInt => exact h.acceptCommand (h.issue 2#3) ht ht'
  | nextLong => exact h.acceptCommand (h.issue 4#3) ht ht'
  | reserved5 => exact h.acceptCommand h ht ht'
  | reserved6 => exact h.acceptCommand h ht ht'
  | reserved7 => exact h.acceptCommand h ht ht'
  | tick c => exact h.tick (p := Config.params) hm hm' ((outcome_next_iff _ _).1 ht) ((outcome_next_iff _ _).1 ht')
  | poll =>
    rw [(poll_cases ht).2, (poll_cases ht').2]
    exact h.polled
  | enter =>
    rw [(enter_cases ht).2, (enter_cases ht').2]
    exact h.toPhase .crit
  | remove c => exact h.remove (p := Config.params) hm hm' (inPhase_cases ht).2 (inPhase_cases ht').2

theorem step (h : Alike s s') (hm : s.pool.wf Config.poolSize = true) (hm' : s'.pool.wf Config.poolSize = true)
    (ht : step s = .next t) (ht' : step s' = .next t') : Alike t t' := by
  obtain ⟨hword, hfetched⟩ := h.fetch
  cases hd : decode (Machine.fetch s).1 with
  | ok i =>
    rw [step_of_event hd] at ht
    rw [step_of_event (hword ▸ hd)] at ht'
    exact hfetched.exec (by simpa using hm) (by simpa using hm') ht ht'
  | error r =>
    rw [step_of_no_event hd] at ht
    rw [step_of_no_event (hword ▸ hd)] at ht'
    cases ht; cases ht'; exact hfetched

/-- R26: two states that meet the invariants and are alike run alike. -/
theorem runSteps (n : Nat) (h : Alike s s') (hs : Inv Config.params s) (hs' : Inv Config.params s') :
    ∃ t t', runSteps n s = .next t ∧ runSteps n s' = .next t' ∧ Alike t t' := by
  induction n generalizing s s' with
  | zero => exact ⟨s, s', rfl, rfl, h⟩
  | succ n ih =>
    obtain ⟨u, hu, hiu⟩ := step_keeps_inv hs
    obtain ⟨u', hu', hiu'⟩ := step_keeps_inv hs'
    rw [runSteps_succ n hu, runSteps_succ n hu']
    exact ih (h.step hs.pool_wf hs'.pool_wf hu hu') hiu hiu'

end Alike

/-! ## What an event does to the consumer's data registers and to ARMED -/

/-- R41, R54, R92: in a busy block only REMOVE and RESET write `ACC` and `REMAIN`. -/
theorem exec_busy_acc_remain {i : Instr} {s t : State} (hx : s.xstate ≠ .idle) (hreset : i ≠ .reset)
    (hremove : ∀ c, i ≠ .remove c) (h : exec i s = .next t) : t.acc = s.acc ∧ t.remain = s.remain := by
  have command (hi : i.format = .cmd) : t.acc = s.acc ∧ t.remain = s.remain := by
    rw [exec_command_busy hi hx] at h
    cases h
    exact ⟨rfl, rfl⟩
  cases i with
  | reset => exact absurd rfl hreset
  | nop => exact command rfl
  | init => exact command rfl
  | nextByte => exact command rfl
  | nextInt => exact command rfl
  | nextLong => exact command rfl
  | reserved5 => exact command rfl
  | reserved6 => exact command rfl
  | reserved7 => exact command rfl
  | tick c =>
    have hframe := tick_frame ((outcome_next_iff _ _).1 h)
    exact ⟨by rw [hframe], by rw [hframe]⟩
  | poll =>
    rw [(poll_cases h).2, State.polled_eq]
    exact ⟨rfl, rfl⟩
  | enter =>
    rw [(enter_cases h).2]
    exact ⟨rfl, rfl⟩
  | remove c => exact absurd rfl (hremove c)

theorem delivery_of_remove {s : State} {c : Bit} (h : decode (fetch s).1 = .ok (.remove c)) :
    delivery s = if s.ready then some (s.pool.read 0) else none := by
  simp [delivery, h]

theorem delivery_eq_none {s : State} (h : ∀ c, decode (fetch s).1 ≠ .ok (.remove c)) : delivery s = none := by
  unfold delivery
  split
  · exact absurd ‹_› (h _)
  · rfl

theorem restarts_of_reset {s : State} (h : decode (fetch s).1 = .ok .reset) : restarts s = true := by
  simp [restarts, h]

/-- R24, R81: one step of a busy block shifts in the byte it delivers, if any, and counts it off. -/
theorem step_shiftsIn_delivery {s t : State} (hs : Inv Config.params s) (hx : s.xstate ≠ .idle)
    (hr : restarts s = false) (h : step s = .next t) :
    t.acc = (delivery s).toList.foldl shiftInByte s.acc ∧
      t.remain.toNat + (delivery s).toList.length = s.remain.toNat := by
  have noDelivery (hd : delivery s = none) (ha : t.acc = s.acc) (hm : t.remain = s.remain) :
      t.acc = (delivery s).toList.foldl shiftInByte s.acc ∧
        t.remain.toNat + (delivery s).toList.length = s.remain.toNat := by simp [hd, ha, hm]
  rcases step_cases h with ⟨i, hi, he⟩ | ⟨r, hi, ho⟩
  · by_cases hrem : ∃ c, i = .remove c
    · obtain ⟨c, rfl⟩ := hrem
      have hd := delivery_of_remove hi
      rcases remove_acc_remain (inPhase_cases he).2 with ⟨h1, ha, hm⟩ | ⟨h0, ha, hm⟩
      · have owed : s.remain ≠ 0#3 := fun h0 => hx (hs.idle_iff.2 h0)
        simp only [fetch_snd_byteCur, fetch_snd_acc, fetch_snd_pool, fetch_snd_remain] at h1 ha hm
        rw [hd, if_pos ((State.ready_iff s).2 h1), hm]
        exact ⟨ha, by simp; bv_omega⟩
      · exact noDelivery (by rw [hd, if_neg (by simpa using h0)]) (by simpa using ha) (by simpa using hm)
    · have hreset : i ≠ .reset := by
        rintro rfl
        cases hr.symm.trans (restarts_of_reset hi)
      have hkept := exec_busy_acc_remain (by simpa using hx) hreset (fun c hc => hrem ⟨c, hc⟩) he
      refine noDelivery (delivery_eq_none fun c hc => hrem ⟨c, ?_⟩) (by simpa using hkept.1) (by simpa using hkept.2)
      exact Except.ok.inj (hi.symm.trans hc)
  · cases ho
    exact noDelivery (delivery_eq_none fun c hc => by cases hi.symm.trans hc) (by simp) (by simp)

/-- R24, R81: a run inside one command shifts in the bytes it delivers, in order, and counts them off. -/
theorem run_shiftsIn_deliveries (n : Nat) {s : State} (hs : Inv Config.params s)
    (hn : never (fun u => !u.busy || restarts u) n s = true) :
    ∃ t, runSteps n s = .next t ∧ t.acc = (collect delivery n s).foldl shiftInByte s.acc ∧
      t.remain.toNat + (collect delivery n s).length = s.remain.toNat := by
  induction n generalizing s with
  | zero => exact ⟨s, rfl, rfl, rfl⟩
  | succ n ih =>
    obtain ⟨u, hu, hiu⟩ := step_keeps_inv hs
    rw [never_succ _ n hu] at hn
    simp only [Bool.and_eq_true, Bool.not_eq_true', Bool.or_eq_false_iff, Bool.not_eq_false', State.busy_iff] at hn
    obtain ⟨⟨hx, hr⟩, hn⟩ := hn
    obtain ⟨ha, hm⟩ := step_shiftsIn_delivery hs hx hr hu
    obtain ⟨t, ht, hta, htm⟩ := ih hiu hn
    rw [runSteps_succ n hu, collect_succ _ n hu, List.foldl_append, List.length_append, ← ha]
    exact ⟨t, ht, hta, by omega⟩

/-- R19: an event that is neither RESET nor INIT leaves `ARMED`. -/
theorem exec_armed {i : Instr} {s t : State} (h : exec i s = .next t) (hreset : i ≠ .reset) (hinit : i ≠ .init) :
    t.armed = s.armed := by
  have command {f : State → State} (hf : (f s).armed = s.armed) (h : acceptCommand f s = .next t) :
      t.armed = s.armed := by
    rcases acceptCommand_cases h with ⟨_, rfl⟩ | ⟨_, rfl⟩
    · exact hf
    · rfl
  cases i with
  | reset => exact absurd rfl hreset
  | init => exact absurd rfl hinit
  | nop => exact command rfl h
  | nextByte => exact command (State.issue_armed s 1#3) h
  | nextInt => exact command (State.issue_armed s 2#3) h
  | nextLong => exact command (State.issue_armed s 4#3) h
  | reserved5 => exact command rfl h
  | reserved6 => exact command rfl h
  | reserved7 => exact command rfl h
  | tick c => rw [tick_frame ((outcome_next_iff _ _).1 h)]
  | poll => rw [(poll_cases h).2, State.polled_eq, State.toPhase_armed]
  | enter => rw [(enter_cases h).2, State.toPhase_armed]
  | remove c => exact remove_armed (inPhase_cases h).2

end Sys2Proof.Machine

/-! ## The obligations on the state -/

namespace Sys2Proof.Proofs

open Sys2Proof.Machine

/-- Settles O9: every value is read off the launch state. -/
theorem launchStateHoldsTheResetValues : Obligations.LaunchStateHoldsTheResetValues :=
  ⟨Memory.read_nil, rfl, rfl, rfl, rfl, rfl, rfl, rfl, rfl, rfl, rfl, rfl⟩

/-- Settles O38: the launch state is the state that RESET makes of it. -/
theorem resetMeetsTheInvariants : Obligations.ResetMeetsTheInvariants :=
  Inv.of_cleared State.reset (Nat.zero_lt_of_lt two_le_poolSize) Config.lfsrSeed_ne

/-- Settles O15: RESET leaves `ARMED` clear, INIT sets or keeps it, and no other event writes it (`exec_armed`). -/
theorem onlyInitArmsAndOnlyResetDisarms : Obligations.OnlyInitArmsAndOnlyResetDisarms := by
  intro i s t h
  refine ⟨fun hs ht => ?_, fun hs ht => ?_⟩
  · by_contra hreset
    by_cases hinit : i = .init
    · subst hinit
      rcases acceptCommand_cases h with ⟨_, rfl⟩ | ⟨_, rfl⟩
      · cases ht
      · cases hs.symm.trans ht
    · rw [exec_armed h hreset hinit, hs] at ht
      cases ht
  · by_contra hinit
    by_cases hreset : i = .reset
    · subst hreset
      cases h
      cases ht
    · rw [exec_armed h hreset hinit, hs] at ht
      cases ht

/-- Settles O39, event by event (`exec_keeps_inv`). -/
theorem everyStepKeepsTheInvariants : Obligations.EveryStepKeepsTheInvariants :=
  fun _ hs => step_keeps_inv hs

/-- Settles O48: the queue after every operation is a function of the queue and the registers before it, so two states
that are `Alike` stay so. -/
theorem staleContentsAreNeverObserved : Obligations.StaleContentsAreNeverObserved := by
  intro s m n hs hs' hv
  obtain ⟨t, _, ht, ht', m', rfl, hv'⟩ := Alike.runSteps n ⟨m, rfl, hv⟩ hs hs'
  exact ⟨t, m', ht, ht', hv'⟩

/-- Settles O52, by induction on the run: each step shifts in what it delivers (`step_shiftsIn_delivery`). -/
theorem accumulatorHoldsTheDeliveredBytesInOrder : Obligations.AccumulatorHoldsTheDeliveredBytesInOrder :=
  fun _ n hs hn => run_shiftsIn_deliveries n hs hn

end Sys2Proof.Proofs

/-! ## The pool's bounds, the consumer's frame, and REMOVE on the queue -/

namespace Sys2Proof.Machine

/-- R31 (log entry 8): a fold with the cursor outside the address space stops. -/
theorem fold_of_outside {p : Params} (c : Bit) {s : State} (hk : p.poolSize ≤ s.byteCur) :
    fold p c s = .error .poolIndexOutOfRange := by
  simp [fold, poolBitWrite, Nat.not_lt.2 hk]

/-- R31 (log entry 8): so does a removal, where such a cursor counts a byte as ready. -/
theorem remove_of_outside {p : Params} (c : Bit) {s : State} (h1 : 1 ≤ s.byteCur) (hk : p.poolSize ≤ s.byteCur) :
    remove p c s = .error .poolIndexOutOfRange := by
  simp [remove, h1, poolRemove, Nat.not_lt.2 hk]

/-- R61: the third arm of TICK. -/
theorem exec_tick_of_folds (c : Bit) {s : State} (h : s.tickFate = .folds) :
    exec (.tick c) s = outcome (fold Config.params c s) := by
  simp [exec, execTick, tick, h]

/-- R56: REMOVE in its phase. -/
theorem exec_remove_of_crit (c : Bit) {s : State} (hx : s.xstate = .crit) :
    exec (.remove c) s = outcome (remove Config.params c s) := if_pos hx

/-- R41, R92: NOP, the reserved codes, the three extraction commands, POLL and ENTER write the consumer's registers only. -/
theorem exec_consumer_frame {i : Instr} {s t : State} (h : exec i s = .next t) (hreset : i ≠ .reset) (hinit : i ≠ .init)
    (htick : ∀ c, i ≠ .tick c) (hremove : ∀ c, i ≠ .remove c) :
    t = { s with xstate := t.xstate, remain := t.remain, acc := t.acc } := by
  have command {f : State → State} (h : acceptCommand f s = .next t)
      (hf : f s = { s with xstate := (f s).xstate, remain := (f s).remain, acc := (f s).acc }) :
      t = { s with xstate := t.xstate, remain := t.remain, acc := t.acc } := by
    rcases acceptCommand_cases h with ⟨_, rfl⟩ | ⟨_, rfl⟩
    · exact hf
    · rfl
  cases i with
  | reset => exact absurd rfl hreset
  | init => exact absurd rfl hinit
  | tick c => exact absurd rfl (htick c)
  | remove c => exact absurd rfl (hremove c)
  | nop => exact command h rfl
  | reserved5 => exact command h rfl
  | reserved6 => exact command h rfl
  | reserved7 => exact command h rfl
  | nextByte => exact command h rfl
  | nextInt => exact command h rfl
  | nextLong => exact command h rfl
  | poll => rw [(poll_cases h).2, State.polled_eq]; rfl
  | enter => rw [(enter_cases h).2]; rfl

/-- R80: with no tick pending the exit does nothing more. -/
theorem exitSection_of_unpended {p : Params} {c : Bit} {s t : State} (h : exitSection p c s = .ok t)
    (hp : s.tickPend = false) : t = s := by
  rcases exitSection_cases h with ⟨_, rfl⟩ | ⟨hp', _⟩
  · rfl
  · cases hp.symm.trans hp'

/-- R78, R79: with no tick pending REMOVE writes neither `BIT_CUR` nor `LFSR`. -/
theorem remove_bitCur_lfsr {p : Params} {c : Bit} {s t : State} (hp : s.tickPend = false) (h : remove p c s = .ok t) :
    t.bitCur = s.bitCur ∧ t.lfsr = s.lfsr := by
  rcases remove_cases h with ⟨_, _, he⟩ | ⟨_, he⟩
  · rw [exitSection_of_unpended he hp]
    exact ⟨rfl, rfl⟩
  · rw [exitSection_of_unpended he hp]
    exact ⟨rfl, rfl⟩

/-- R45, R80: on the queue the exit is the fold of the tick that is pending, or nothing. -/
theorem view_exitSection {p : Params} {c : Bit} {s t : State} (hm : s.pool.wf p.poolSize = true)
    (h : exitSection p c s = .ok t) :
    t.view = if s.tickPend then s.view.fold p.poolSize (mix (lfsrStep s.lfsr) c) else s.view := by
  rcases exitSection_cases h with ⟨hp, rfl⟩ | ⟨hp, hf⟩
  · simp [hp]
  · rw [if_pos hp]
    exact view_fold (s := s.withPend false) hm hf

/-- R17, R45: with no byte ready there is no front to drop. -/
theorem State.view_dropFront_of_empty {s : State} (h0 : s.byteCur = 0) : s.view.dropFront = s.view := by
  simp [View.dropFront, State.view, h0]

/-- R45, R78 to R80, R90: on the queue REMOVE drops the front, and then folds if a tick is pending. -/
theorem view_remove {p : Params} {c : Bit} {s t : State} (hm : s.pool.wf p.poolSize = true)
    (h : remove p c s = .ok t) :
    t.view = if s.tickPend then s.view.dropFront.fold p.poolSize (mix (lfsrStep s.lfsr) c) else s.view.dropFront := by
  rcases remove_cases h with ⟨h1, hk, he⟩ | ⟨h0, he⟩
  · rw [← view_extracted hm h1 hk]
    exact view_exitSection (s := s.extracted p) (poolRemove_wf hm hk) he
  · rw [State.view_dropFront_of_empty h0]
    exact view_exitSection (s := s.toPhase .wait) hm he

/-- R24, R78: the byte that REMOVE shifts into `ACC` is the front of the queue. -/
theorem remove_acc_of_front {p : Params} {c : Bit} {s t : State} {b : Byte} {q : List Byte}
    (hq : s.view.complete = b :: q) (h : remove p c s = .ok t) : t.acc = shiftInByte s.acc b := by
  have h1 : 1 ≤ s.byteCur := by rw [← State.length_view_complete, hq]; simp
  have front : s.pool.read 0 = b := by
    have := State.view_complete_head? h1
    rw [hq] at this
    exact (Option.some.inj this).symm
  rcases remove_acc_remain h with ⟨_, ha, _⟩ | ⟨h0, _⟩
  · rw [ha, front]
  · omega

/-! ## The RESULT of a command -/

/-- R81: the first byte of a command meets an empty accumulator. -/
theorem shiftInByte_zero (b : Byte) : shiftInByte 0#32 b = b.setWidth 32 := by
  simp [shiftInByte]

/-- R36, R81: a byte shifted in stands below what was there, at any width of that. -/
theorem shiftInByte_setWidth {n : Nat} (w : BitVec n) (b : Byte) :
    shiftInByte (w.setWidth 32) b = (w ++ b).setWidth 32 := by
  refine BitVec.eq_of_getLsbD_eq fun i hi => ?_
  simp only [shiftInByte, BitVec.getLsbD_or, BitVec.getLsbD_shiftLeft, BitVec.getLsbD_setWidth, BitVec.getLsbD_append]
  by_cases h8 : i < 8
  · simp [h8, hi]
  · have above : b.getLsbD i = false := BitVec.getLsbD_of_ge b i (by omega)
    have below : i - 8 < 32 := by omega
    simp [h8, hi, above, below]

@[simp] theorem fetch_snd_result (s : State) : (fetch s).2.result = none := by
  obtain ⟨_, _, h⟩ := fetch_state s; rw [h]

/-- R50: REMOVE leaves the result port, or ends the command and puts the final `ACC` there. -/
theorem remove_result {p : Params} {c : Bit} {s t : State} (h : remove p c s = .ok t) :
    t.result = s.result ∨ (t.xstate = .idle ∧ t.remain = 0#3 ∧ t.result = some t.acc) := by
  rcases remove_cases h with ⟨_, _, he⟩ | ⟨_, he⟩ <;> rw [exitSection_frame he]
  · by_cases h0 : s.remain - 1#3 = 0#3 <;> simp [h0]
  · exact .inl rfl

/-- R50: no other event writes the result port. -/
theorem exec_result {i : Instr} {s t : State} (h : exec i s = .next t) (hremove : ∀ c, i ≠ .remove c) :
    t.result = s.result := by
  by_cases hreset : i = .reset
  · subst hreset; cases h; rfl
  by_cases hinit : i = .init
  · subst hinit
    rcases acceptCommand_cases h with ⟨_, rfl⟩ | ⟨_, rfl⟩ <;> rfl
  by_cases htick : ∃ c, i = .tick c
  · obtain ⟨c, rfl⟩ := htick
    rw [tick_frame ((outcome_next_iff _ _).1 h)]
  rw [exec_consumer_frame h hreset hinit (fun c hc => htick ⟨c, hc⟩) hremove]

/-- R50: a step that answers with a RESULT is the last REMOVE of a command, and the value is the final `ACC`. -/
theorem step_result {s t : State} {v : Word} (h : step s = .next t) (hv : t.result = some v) :
    (∃ c, decode (fetch s).1 = .ok (.remove c)) ∧ t.xstate = .idle ∧ t.remain = 0#3 ∧ t.acc = v := by
  have noStrobe (hn : t.result = (fetch s).2.result) : False := by simp [hv] at hn
  rcases step_cases h with ⟨i, hi, he⟩ | ⟨r, _, ho⟩
  · by_cases hrem : ∃ c, i = .remove c
    · obtain ⟨c, rfl⟩ := hrem
      rcases remove_result (inPhase_cases he).2 with hn | ⟨hx, hm, hr⟩
      · exact (noStrobe hn).elim
      · exact ⟨⟨c, hi⟩, hx, hm, Option.some.inj (hr.symm.trans hv)⟩
    · exact (noStrobe (exec_result he fun c hc => hrem ⟨c, hc⟩)).elim
  · cases ho
    exact (noStrobe rfl).elim

/-- A run of at least one step ends in a step. -/
theorem runSteps_last (n : Nat) {s t : State} (h : runSteps (n + 1) s = .next t) :
    ∃ u, runSteps n s = .next u ∧ step u = .next t := by
  induction n generalizing s with
  | zero =>
    cases hs : step s with
    | next u => exact ⟨s, rfl, by rw [hs, ← h, runSteps_succ 0 hs]; rfl⟩
    | fault f => simp [runSteps, hs] at h
    | refused r => simp [runSteps, hs] at h
  | succ n ih =>
    cases hs : step s with
    | next u =>
      rw [runSteps_succ _ hs] at h
      rw [runSteps_succ n hs]
      exact ih h
    | fault f => simp [runSteps, hs] at h
    | refused r => simp [runSteps, hs] at h

/-- R75: the state after the issue of an extraction command in IDLE. -/
theorem step_of_issue {s s1 : State} {i : Instr} {m : BitVec 3} (hx : s.xstate = .idle)
    (hd : decode (fetch s).1 = .ok i) (hi : exec i (fetch s).2 = acceptCommand (State.issue m) (fetch s).2)
    (h : step s = .next s1) : s1 = (fetch s).2.issue m := by
  rw [step_of_event hd, hi] at h
  rcases acceptCommand_cases h with ⟨_, h⟩ | ⟨hb, _⟩
  · exact h
  · exact absurd ((fetch_snd_xstate s).trans hx) hb

/-- R24, R50, R81: a run from the issue of `m` bytes to the RESULT delivers `m` bytes, and the RESULT is what they leave in
an accumulator that was empty. -/
theorem result_of_issue {s s1 t : State} {i : Instr} {n : Nat} {v : Word} {m : BitVec 3} (hs : Inv Config.params s)
    (hx : s.xstate = .idle) (hd : decode (fetch s).1 = .ok i)
    (hi : exec i (fetch s).2 = acceptCommand (State.issue m) (fetch s).2) (h1 : step s = .next s1)
    (hn : never (fun u => !u.busy || restarts u) n s1 = true) (ht : runSteps n s1 = .next t) (hv : t.result = some v) :
    (collect delivery n s1).length = m.toNat ∧ v = (collect delivery n s1).foldl shiftInByte 0#32 := by
  obtain ⟨u, _, hu⟩ := runSteps_last n ((runSteps_succ n h1).trans ht)
  obtain ⟨_, _, hremain, hacc⟩ := step_result hu hv
  have hissue := step_of_issue hx hd hi h1
  obtain ⟨_, hs1, hinv⟩ := step_keeps_inv hs
  cases h1.symm.trans hs1
  obtain ⟨_, ht', hta, htm⟩ := run_shiftsIn_deliveries n hinv hn
  cases ht.symm.trans ht'
  have hacc1 : s1.acc = 0#32 := by rw [hissue]; rfl
  have hremain1 : s1.remain = m := by rw [hissue]; rfl
  rw [hremain, hremain1] at htm
  rw [hacc, hacc1] at hta
  exact ⟨by simpa using htm, hta⟩

end Sys2Proof.Machine

/-! ## The obligations on the pool, the two agents and the queue -/

namespace Sys2Proof.Proofs

open Sys2Proof.Machine

/-- Settles O53: the run delivers as many bytes as the command issued for (`result_of_issue`), and each byte shifted in
stands below the ones before it (`shiftInByte_setWidth`). -/
theorem resultComposesTheBytesRemoved : Obligations.ResultComposesTheBytesRemoved := by
  intro s s1 t n v hs hx h1 hn ht hv
  refine ⟨fun hd => ?_, fun hd => ?_, fun hd => ?_⟩
  · obtain ⟨hlen, hval⟩ := result_of_issue (m := 1#3) hs hx hd rfl h1 hn ht hv
    obtain ⟨b1, hb⟩ := List.length_eq_one_iff.1 hlen
    refine ⟨b1, hb, ?_⟩
    rw [hval, hb, List.foldl_cons, List.foldl_nil, shiftInByte_zero]
  · obtain ⟨hlen, hval⟩ := result_of_issue (m := 2#3) hs hx hd rfl h1 hn ht hv
    obtain ⟨b1, b2, hb⟩ := List.length_eq_two.1 hlen
    refine ⟨b1, b2, hb, ?_⟩
    simp only [hval, hb, List.foldl_cons, List.foldl_nil, shiftInByte_zero, shiftInByte_setWidth]
  · obtain ⟨hlen, hval⟩ := result_of_issue (m := 4#3) hs hx hd rfl h1 hn ht hv
    obtain ⟨b1, b2, b3, b4, hb⟩ := List.length_eq_four.1 hlen
    refine ⟨b1, b2, b3, b4, hb, ?_⟩
    simp only [hval, hb, List.foldl_cons, List.foldl_nil, shiftInByte_zero, shiftInByte_setWidth]

/-- Settles O34: neither shared operation accesses a slot that does not exist. -/
theorem accessOutsideThePoolFaults : Obligations.AccessOutsideThePoolFaults := by
  intro s c hk
  have h1 : 1 ≤ s.byteCur := Nat.le_trans (Nat.le_of_lt two_le_poolSize) hk
  refine ⟨fun hf => ?_, fun hx => ?_⟩
  · rw [exec_tick_of_folds c hf, fold_of_outside (p := Config.params) c hk]
    rfl
  · rw [exec_remove_of_crit c hx, remove_of_outside (p := Config.params) c h1 hk]
    rfl

/-- Settles O42: a command is turned away, POLL and ENTER do not exist in CRIT, and a TICK is held if the block is
armed. -/
theorem onlyResetAndRemoveActInsideTheSection : Obligations.OnlyResetAndRemoveActInsideTheSection := by
  intro i s t hx h hreset hremove
  have command (hi : i.format = .cmd) : t = s := by
    rw [exec_command_busy hi (by simp [hx])] at h
    exact (Host.Outcome.next.inj h).symm
  cases i with
  | reset => exact absurd rfl hreset
  | remove c => exact absurd rfl (hremove c)
  | nop => exact .inl (command rfl)
  | init => exact .inl (command rfl)
  | nextByte => exact .inl (command rfl)
  | nextInt => exact .inl (command rfl)
  | nextLong => exact .inl (command rfl)
  | reserved5 => exact .inl (command rfl)
  | reserved6 => exact .inl (command rfl)
  | reserved7 => exact .inl (command rfl)
  | poll => cases hx.symm.trans (poll_cases h).1
  | enter => cases hx.symm.trans (enter_cases h).1
  | tick c =>
    rcases tick_cases ((outcome_next_iff _ _).1 h) with ⟨_, ht⟩ | ⟨_, _, ht⟩ | ⟨_, hnot, _⟩
    · exact .inl ht
    · exact .inr ⟨ht, c, rfl⟩
    · exact absurd hx hnot

/-- Settles O44: all but REMOVE keep to the consumer's registers (`exec_consumer_frame`), and REMOVE reaches `BIT_CUR` and
`LFSR` through the pended fold only (`remove_bitCur_lfsr`). -/
theorem consumerLeavesTheProducersRegisters : Obligations.ConsumerLeavesTheProducersRegisters := by
  intro i s t h hreset hinit htick
  have frame := exec_consumer_frame h hreset hinit htick
  refine ⟨fun hremove => ?_, fun hp => ?_⟩
  · rw [frame hremove]
    exact ⟨rfl, rfl, rfl, rfl, rfl⟩
  · by_cases hrem : ∃ c, i = .remove c
    · obtain ⟨c, rfl⟩ := hrem
      exact remove_bitCur_lfsr hp (inPhase_cases h).2
    · rw [frame fun c hc => hrem ⟨c, hc⟩]
      exact ⟨rfl, rfl⟩

/-- Settles O46: the TICK folds inside the pool, and `view_fold` says what that is on the queue. -/
theorem foldActsOnTheQueue : Obligations.FoldActsOnTheQueue := by
  intro s c hs hf
  have folded := fold_ok c hs.byteCur_lt
  exact ⟨_, by rw [exec_tick_of_folds c hf, folded]; rfl, view_fold hs.pool_wf folded⟩

/-- Settles O47: REMOVE answers in every such state (`Inv.remove`), and `view_remove` and `remove_acc_of_front` say what it
does to the queue and to `ACC`. -/
theorem removeActsOnTheQueue : Obligations.RemoveActsOnTheQueue := by
  intro s c hs hx
  obtain ⟨t, ht, _⟩ := hs.remove hx c
  exact ⟨t, by rw [exec_remove_of_crit c hx, ht]; rfl, view_remove hs.pool_wf ht, fun _ _ hq => remove_acc_of_front hq ht⟩

end Sys2Proof.Proofs

/-! ## The decoder and the encoder -/

namespace Sys2Proof.Machine

/-- R53: bit 1 of the event word asserts the tick, and bit 0 is its draw. -/
theorem decode_tickWord (c : Bit) : decode (.evt (0b1#1 ++ BitVec.ofBool c)) = .ok (.tick c) := by cases c <;> rfl

/-- R53: with bit 1 clear the event word is no event, whatever the draw. -/
theorem decode_noTickWord (c : Bit) : decode (.evt (0b0#1 ++ BitVec.ofBool c)) = .error .noTick := by cases c <;> rfl

/-- R53: a word of the reset input selects no event, or the event whose word it is. -/
theorem encode_decode_rst : ∀ w : BitVec 1,
    decode (.rst w) = .error .resetNotAsserted ∨ (decode (.rst w)).map encode = .ok (.rst w) := by decide

/-- R60: every word of the command port selects the event whose word it is. -/
theorem encode_decode_cmd : ∀ w : BitVec 3, (decode (.cmd w)).map encode = .ok (.cmd w) := by decide

/-- R53: a word of the event input selects no event, or the event whose word it is. -/
theorem encode_decode_evt : ∀ w : BitVec 2,
    decode (.evt w) = .error .noTick ∨ (decode (.evt w)).map encode = .ok (.evt w) := by decide

/-- R55, R96: a command with no effect answers the same state, accepted or not. -/
theorem acceptCommand_id (s : State) : acceptCommand id s = .next s := by
  unfold acceptCommand
  split <;> rfl

/-- R56 (log entry 7): a micro-step outside its phase is refused. -/
theorem inPhase_of_ne {x : XState} {s : State} (f : State → Except Fault State) (hx : s.xstate ≠ x) :
    inPhase x f s = .refused .microStepNotEnabled := if_neg hx

/-! ## The step on a listed input, and with none listed -/

section
variable {s : State} {x : Input} {rest : List Input} {i : Instr} {r : Reject}

/-- Log entry 3: the step takes the first input off the list and runs the event of its word. -/
theorem step_of_input_event (hs : s.inputs = x :: rest) (hd : decode (inputWord s.xstate x) = .ok i) :
    step s = exec i (s.afterInput rest) := by
  rw [step_of_event (i := i) (by rwa [fetch_cons hs]), fetch_cons hs]

/-- Log entry 19: a word that selects no event is taken off the list, and nothing runs. -/
theorem step_of_input_no_event (hs : s.inputs = x :: rest) (hd : decode (inputWord s.xstate x) = .error r) :
    step s = .next (s.afterInput rest) := by
  rw [step_of_no_event (r := r) (by rwa [fetch_cons hs]), fetch_cons hs]

/-- Log entries 4, 14: with no input listed the step is the micro-step of the phase on a free draw. -/
theorem step_of_free_draw_event (hs : s.inputs = [])
    (hd : decode (.xst s.xstate.code (Config.freeDraw s.drawCount)) = .ok i) : step s = exec i s.afterFreeDraw := by
  rw [step_of_event (i := i) (by rwa [fetch_nil hs]), fetch_nil hs]

/-- Log entry 4: where the phase enables no micro-step only the draw is taken. -/
theorem step_of_free_draw_no_event (hs : s.inputs = [])
    (hd : decode (.xst s.xstate.code (Config.freeDraw s.drawCount)) = .error r) : step s = .next s.afterFreeDraw := by
  rw [step_of_no_event (r := r) (by rwa [fetch_nil hs]), fetch_nil hs]

end

/-! ## No event reads or writes the list of inputs -/

section
variable {p : Params} {c : Bit} {s t : State} (l : List Input)

theorem fold_withInputs (h : fold p c s = .ok t) :
    fold p c { s with inputs := l } = .ok { t with inputs := l } := by
  obtain ⟨hk, rfl⟩ := fold_cases h
  exact fold_ok c hk

theorem tick_withInputs (h : tick p c s = .ok t) :
    tick p c { s with inputs := l } = .ok { t with inputs := l } := by
  have fate : State.tickFate { s with inputs := l } = s.tickFate := rfl
  unfold tick at h ⊢
  rw [fate]
  cases hf : s.tickFate <;> rw [hf] at h
  case ignored => cases h; rfl
  case held => cases h; rfl
  case folds => exact fold_withInputs l h

theorem exitSection_withInputs (h : exitSection p c s = .ok t) :
    exitSection p c { s with inputs := l } = .ok { t with inputs := l } := by
  rcases exitSection_cases h with ⟨hp, rfl⟩ | ⟨hp, hf⟩
  · exact if_neg (by simp [hp])
  · exact (if_pos hp).trans (fold_withInputs l hf)

theorem remove_withInputs (h : remove p c s = .ok t) :
    remove p c { s with inputs := l } = .ok { t with inputs := l } := by
  rcases remove_cases h with ⟨h1, hk, he⟩ | ⟨h0, he⟩
  · exact (remove_of_ready (s := { s with inputs := l }) c h1 hk).trans (exitSection_withInputs l he)
  · exact (remove_of_empty (s := { s with inputs := l }) p c h0).trans (exitSection_withInputs l he)

theorem acceptCommand_withInputs {f : State → State}
    (hf : f { s with inputs := l } = { f s with inputs := l }) (h : acceptCommand f s = .next t) :
    acceptCommand f { s with inputs := l } = .next { t with inputs := l } := by
  rcases acceptCommand_cases h with ⟨hx, rfl⟩ | ⟨hx, rfl⟩
  · rw [← hf]
    exact if_neg (by simp [hx])
  · exact if_pos ((State.busy_iff _).2 hx)

theorem inPhase_withInputs {x : XState} {f : State → Except Fault State}
    (hf : f s = .ok t → f { s with inputs := l } = .ok { t with inputs := l }) (h : inPhase x f s = .next t) :
    inPhase x f { s with inputs := l } = .next { t with inputs := l } := by
  obtain ⟨hx, ht⟩ := inPhase_cases h
  exact (if_pos hx).trans ((outcome_next_iff _ _).2 (hf ht))

/-- R39, log entry 3: what is still to come has no part in an event, which does the same under any list of inputs and leaves
it. -/
theorem exec_withInputs {i : Instr} (h : exec i s = .next t) :
    exec i { s with inputs := l } = .next { t with inputs := l } := by
  cases i with
  | reset => cases h; rfl
  | nop => exact acceptCommand_withInputs l rfl h
  | init => exact acceptCommand_withInputs l rfl h
  | nextByte => exact acceptCommand_withInputs l rfl h
  | nextInt => exact acceptCommand_withInputs l rfl h
  | nextLong => exact acceptCommand_withInputs l rfl h
  | reserved5 => exact acceptCommand_withInputs l rfl h
  | reserved6 => exact acceptCommand_withInputs l rfl h
  | reserved7 => exact acceptCommand_withInputs l rfl h
  | tick c => exact (outcome_next_iff _ _).2 (tick_withInputs l ((outcome_next_iff _ _).1 h))
  | poll =>
    obtain ⟨hx, rfl⟩ := poll_cases h
    rw [State.polled_eq]
    exact (if_pos hx).trans (congrArg Host.Outcome.next (State.polled_eq _))
  | enter =>
    obtain ⟨hx, rfl⟩ := enter_cases h
    exact if_pos hx
  | remove c => exact inPhase_withInputs l (remove_withInputs l) h

end

/-! ## Admissible traces (R59) -/

/-- An admissible trace begins with an event that is enabled and answers, and the rest is admissible there. -/
theorem admissible_cons_cases {i : Instr} {p : List Instr} {s : State} (h : admissible (i :: p) s = true) :
    enabled i s = true ∧ ∃ t, exec i { s with result := none } = .next t ∧ admissible p t = true := by
  simp only [admissible, Bool.and_eq_true] at h
  obtain ⟨henabled, h⟩ := h
  refine ⟨henabled, ?_⟩
  split at h
  case h_1 t ht => exact ⟨t, ht, h⟩
  all_goals cases h

/-- R59: from a state where its trace is admissible a program runs on its input words, put before `rest`, as its events do. -/
theorem run_of_admissible (p : List Instr) (rest : List Input) {s : State} (h : admissible p s = true) :
    ∃ t, runSteps p.length { s with inputs := programWords p ++ rest } = .next t ∧ t.inputs = rest ∧
      runTrace p { s with inputs := rest } = .next t := by
  induction p generalizing s with
  | nil => exact ⟨_, rfl, rfl, rfl⟩
  | cons i p ih =>
    obtain ⟨hi, u, hu, hp⟩ := admissible_cons_cases h
    obtain ⟨t, hrun, hin, htrace⟩ := ih hp
    have hstep : step { s with inputs := programWords (i :: p) ++ rest } =
        .next { u with inputs := programWords p ++ rest } :=
      (step_of_input_event (s := { s with inputs := _ }) rfl (decode_inputOf hi)).trans (exec_withInputs _ hu)
    refine ⟨t, ?_, hin, ?_⟩
    · rw [← hrun]
      exact runSteps_succ p.length hstep
    · rw [← htrace]
      exact runTrace_cons p (exec_withInputs rest hu)

end Sys2Proof.Machine

/-! ## The obligations on the encodings and the step -/

namespace Sys2Proof.Proofs

open Sys2Proof.Machine

/-- Settles O45: only REMOVE writes the result port, when it has ended the command (`step_result`). -/
theorem onlyTheLastRemoveEmitsAResult : Obligations.OnlyTheLastRemoveEmitsAResult :=
  fun _ _ _ h hv => step_result h hv

/-- Settles O57, by induction on the program (`run_of_admissible`), at the state's own list of inputs. -/
theorem admissibleTraceRunsAsItsWords : Obligations.AdmissibleTraceRunsAsItsWords := by
  intro s p rest hs h
  have run := run_of_admissible p rest h
  rwa [← hs] at run

/-- Settles O1, row by row of the table; the draw of a TICK is a bit of its word (`decode_tickWord`). -/
theorem decodeOfEncodeGivesTheEvent : Obligations.DecodeOfEncodeGivesTheEvent := by
  intro i
  cases i with
  | tick c => exact decode_tickWord c
  | reset => rfl
  | nop => rfl
  | init => rfl
  | nextByte => rfl
  | nextInt => rfl
  | nextLong => rfl
  | reserved5 => rfl
  | reserved6 => rfl
  | reserved7 => rfl
  | poll => rfl
  | enter => rfl
  | remove c => rfl

/-- Settles O2: each code is read bit by bit. -/
theorem commandCodesDecodeAsTheTableSays : Obligations.CommandCodesDecodeAsTheTableSays :=
  ⟨rfl, rfl, rfl, rfl, rfl, rfl, rfl, rfl⟩

/-- Settles O3: the event words by `decode_tickWord` and `decode_noTickWord`, the phases by `decode_xst_code`. -/
theorem eventResetAndPhaseWordsDecode : Obligations.EventResetAndPhaseWordsDecode :=
  ⟨decode_tickWord, decode_noTickWord, rfl, rfl, decode_xst_code .wait, decode_xst_code .grant, decode_xst_code .crit,
    decode_xst_code .idle⟩

/-- Settles O4, port by port: the word of the event that a word selects is that word. -/
theorem inputWordsHaveOneEventEach : Obligations.InputWordsHaveOneEventEach := by
  intro e i h hf
  have same {e : EventWord} (h : decode e = .ok i) (he : (decode e).map encode = .ok e) : encode i = e := by
    rw [h] at he
    exact Except.ok.inj he
  cases e with
  | rst w =>
    rcases encode_decode_rst w with hn | he
    · cases h.symm.trans hn
    · exact same h he
  | cmd w => exact same h (encode_decode_cmd w)
  | evt w =>
    rcases encode_decode_evt w with hn | he
    · cases h.symm.trans hn
    · exact same h he
  | xst w c => exact absurd rfl hf

/-- Settles O5: `step_of_input_event` and `step_of_free_draw_event`, with what they fetch written out. -/
theorem stepRunsTheDecodedEvent : Obligations.StepRunsTheDecodedEvent :=
  ⟨fun _ _ _ _ hs hd => step_of_input_event hs hd, fun _ _ hs hd => step_of_free_draw_event hs hd⟩

/-- Settles O6: the decoder rejects each of the words, so nothing runs. -/
theorem wordsOfNoEventChangeNothing : Obligations.WordsOfNoEventChangeNothing := by
  have noMicroStep {s : State} (hidle : s.xstate = .idle) (c : Bit) :
      decode (.xst s.xstate.code c) = .error .noMicroStep := by
    rw [hidle]
    exact decode_xst_code .idle c
  refine ⟨fun s x rest hs hx => ?_, fun s hs hidle => step_of_free_draw_no_event hs (noMicroStep hidle _)⟩
  rcases hx with rfl | rfl | rfl | ⟨hidle, c, rfl⟩
  · exact step_of_input_no_event (r := .resetNotAsserted) hs rfl
  · exact step_of_input_no_event hs (decode_noTickWord false)
  · exact step_of_input_no_event hs (decode_noTickWord true)
  · exact step_of_input_no_event hs (noMicroStep hidle c)

/-- Settles O12: the three codes run as a command with no effect (`acceptCommand_id`). -/
theorem reservedCodesActAsNop : Obligations.ReservedCodesActAsNop :=
  fun s => ⟨acceptCommand_id s, acceptCommand_id s, acceptCommand_id s⟩

/-- Settles O13, command by command (`exec_command_busy`). -/
theorem commandWhileBusyHasNoEffect : Obligations.CommandWhileBusyHasNoEffect :=
  fun _ _ hx hi => exec_command_busy hi hx

/-- Settles O33: each of the three micro-steps exists in its own phase only (`inPhase_of_ne`). -/
theorem microStepOutsideItsPhaseIsRefused : Obligations.MicroStepOutsideItsPhaseIsRefused :=
  fun _ c => ⟨inPhase_of_ne fun t => .ok t.polled, inPhase_of_ne fun t => .ok (t.toPhase .crit),
    inPhase_of_ne (remove Config.params c)⟩

end Sys2Proof.Proofs

/-! ## LFSR_STEP: its inverse and its iterates -/

namespace Sys2Proof.Machine

/-- R68: the predecessor of an LFSR value, by the formula of the rule. -/
def lfsrUnstep (s : Word) : Word :=
  (s <<< 1) ||| (BitVec.ofBool (s.getLsbD 31 ^^ s.getLsbD 1 ^^ s.getLsbD 2 ^^ s.getLsbD 8)).setWidth 32

/-- R68: the lowest bit of the predecessor undoes the feedback. -/
theorem lfsrUnstep_getLsbD_zero (s : Word) :
    (lfsrUnstep s).getLsbD 0 = (s.getLsbD 31 ^^ s.getLsbD 1 ^^ s.getLsbD 2 ^^ s.getLsbD 8) := by
  simp [lfsrUnstep]

/-- R68: every other bit of the predecessor stands one higher than in the successor. -/
theorem lfsrUnstep_getLsbD_succ (s : Word) {i : Nat} (hi : i < 31) : (lfsrUnstep s).getLsbD (i + 1) = s.getLsbD i := by
  simp [lfsrUnstep, show i + 1 < 32 by omega, BitVec.getLsbD_eq_getElem (show i < 32 by omega)]

/-- R68: three taps taken twice cancel. -/
theorem xor_taps_twice : ∀ a x y z : Bit, (a ^^ x ^^ y ^^ z ^^ x ^^ y ^^ z) = a := by decide

/-- R68: the formula gives a predecessor. -/
theorem lfsrStep_lfsrUnstep (s : Word) : lfsrStep (lfsrUnstep s) = s := by
  refine BitVec.eq_of_getLsbD_eq fun i hi => ?_
  by_cases h31 : i < 31
  · rw [lfsrStep_getLsbD_low _ h31, lfsrUnstep_getLsbD_succ _ h31]
  · obtain rfl : i = 31 := by omega
    have feedback : lfsrFeedback (lfsrUnstep s) =
        (s.getLsbD 31 ^^ s.getLsbD 1 ^^ s.getLsbD 2 ^^ s.getLsbD 8 ^^ s.getLsbD 1 ^^ s.getLsbD 2 ^^ s.getLsbD 8) := by
      rw [lfsrFeedback, lfsrUnstep_getLsbD_zero, lfsrUnstep_getLsbD_succ s (i := 1) (by decide),
        lfsrUnstep_getLsbD_succ s (i := 2) (by decide), lfsrUnstep_getLsbD_succ s (i := 8) (by decide)]
    rw [lfsrStep_getLsbD_high, feedback, xor_taps_twice]

/-- R68: there is no other predecessor. -/
theorem lfsrUnstep_lfsrStep (s : Word) : lfsrUnstep (lfsrStep s) = s := by
  refine BitVec.eq_of_getLsbD_eq fun i hi => ?_
  cases i with
  | succ i => rw [lfsrUnstep_getLsbD_succ _ (by omega), lfsrStep_getLsbD_low _ (by omega)]
  | zero =>
    rw [lfsrUnstep_getLsbD_zero, lfsrStep_getLsbD_high, lfsrStep_getLsbD_low s (i := 1) (by decide),
      lfsrStep_getLsbD_low s (i := 2) (by decide), lfsrStep_getLsbD_low s (i := 8) (by decide), lfsrFeedback]
    exact xor_taps_twice _ _ _ _

/-- R72: until it leaves the register, a bit moves one place down per step. -/
theorem lfsrStep_iterate_getLsbD (n : Nat) (s : Word) {i : Nat} (hi : i + n ≤ 31) :
    (lfsrStep^[n] s).getLsbD i = s.getLsbD (i + n) := by
  induction n generalizing i with
  | zero => rfl
  | succ n ih =>
    rw [Function.iterate_succ_apply', lfsrStep_getLsbD_low _ (by omega), ih (by omega)]
    congr 1
    omega

/-! ## The fold on the registers -/

/-- R66: below bit 7 only the bit cursor moves. -/
theorem advance_of_lt_seven {n k : Nat} {b : BitVec 3} (hb : b.toNat < 7) : advance n k b = (k, b + 1#3) := if_pos hb

/-- R66: at bit 7 below the last slot the byte cursor moves. -/
theorem advance_of_seven {n k : Nat} {b : BitVec 3} (hb : b.toNat = 7) (hk : k < n - 1) :
    advance n k b = (k + 1, 0#3) := by
  simp [advance, hb, hk]

/-- R66: at bit 7 of the last slot both cursors go back to the start. -/
theorem advance_of_last {n k : Nat} {b : BitVec 3} (hb : b.toNat = 7) (hk : k = n - 1) :
    advance n k b = (0, 0#3) := by
  simp [advance, hb, hk]

/-- R66, R74: the position `8 * k + b` moves by one, modulo the `8 * N` bits of the pool. -/
theorem advance_position {n k : Nat} {b : BitVec 3} (hk : k < n) :
    8 * (advance n k b).1 + (advance n k b).2.toNat = (8 * k + b.toNat + 1) % (8 * n) := by
  have hb8 : b.toNat < 8 := b.isLt
  by_cases hb : b.toNat < 7
  · have hb' : (b + 1#3).toNat = b.toNat + 1 := by bv_omega
    rw [advance_of_lt_seven hb, Nat.mod_eq_of_lt (by omega), hb', Nat.add_assoc]
  · have hb7 : b.toNat = 7 := by omega
    by_cases hlast : k < n - 1
    · rw [advance_of_seven hb7 hlast, Nat.mod_eq_of_lt (by omega), hb7]
      rfl
    · have full : 8 * k + b.toNat + 1 = 8 * n := by omega
      rw [advance_of_last hb7 (by omega), full, Nat.mod_self]
      rfl

/-- The state after the four steps of a fold (R62), inside the pool. -/
def State.folded (p : Params) (c : Bit) (s : State) : State :=
  s.afterFold (lfsrStep s.lfsr)
    (s.pool.write s.byteCur (setBit (s.pool.read s.byteCur) s.bitCur (mix (lfsrStep s.lfsr) c)))
    (advance p.poolSize s.byteCur s.bitCur)

/-- R62: inside the pool a fold answers. -/
theorem fold_eq_folded {p : Params} (c : Bit) {s : State} (hk : s.byteCur < p.poolSize) :
    fold p c s = .ok (s.folded p c) := fold_ok c hk

/-- R64: the result of a fold, from the LFSR before it. -/
theorem mix_lfsrStep (l : Word) (c : Bit) : mix (lfsrStep l) c = (l.getLsbD 1 ^^ c) := by
  rw [mix, lfsrStep_getLsbD_low l (by decide)]

/-- R65: the slots after a fold. -/
theorem State.folded_read {p : Params} (c : Bit) {s : State} (hm : s.pool.wf p.poolSize = true) (i : Nat) :
    (s.folded p c).pool.read i =
      if i = s.byteCur then setBit (s.pool.read s.byteCur) s.bitCur (s.lfsr.getLsbD 1 ^^ c) else s.pool.read i := by
  rw [← mix_lfsrStep]
  exact Memory.read_write hm s.byteCur i _

/-- R61: the condition of the third arm. -/
theorem State.tickFate_folds_iff (s : State) : s.tickFate = .folds ↔ s.armed = true ∧ s.xstate ≠ .crit := by
  rcases State.tickFate_cases s with ⟨ha, hf⟩ | ⟨ha, hx, hf⟩ | ⟨ha, hx, hf⟩
  · simp [ha, hf]
  · simp [hx, hf]
  · simp [ha, hx, hf]

/-- R61, R102: TICK before INIT. -/
theorem exec_tick_of_unarmed (c : Bit) {s : State} (ha : s.armed = false) : exec (.tick c) s = .next s := by
  simp [exec, execTick, tick, outcome, State.tickFate, ha]

/-- R61, R103: TICK of an armed block in CRIT. -/
theorem exec_tick_of_crit (c : Bit) {s : State} (ha : s.armed = true) (hx : s.xstate = .crit) :
    exec (.tick c) s = .next (s.withPend true) := by
  simp [exec, execTick, tick, outcome, State.tickFate, State.mask, ha, hx]

/-- R61: TICK of an armed block outside CRIT, with the cursor in range. -/
theorem exec_tick_folded (c : Bit) {s : State} (ha : s.armed = true) (hx : s.xstate ≠ .crit)
    (hk : s.byteCur < Config.poolSize) : exec (.tick c) s = .next (s.folded Config.params c) := by
  rw [exec_tick_of_folds c ((State.tickFate_folds_iff s).2 ⟨ha, hx⟩), fold_eq_folded (p := Config.params) c hk]
  rfl

/-- R53, R61: the step on the event word of a TICK that folds. -/
theorem step_of_tickWord {s : State} {c : Bit} {draws : List Bit} {rest : List Input} (hs : Inv Config.params s)
    (hf : s.tickFate = .folds) (hin : s.inputs = tickWords (c :: draws) ++ rest) :
    step s = .next ((s.afterInput (tickWords draws ++ rest)).folded Config.params c) := by
  obtain ⟨ha, hx⟩ := (State.tickFate_folds_iff s).1 hf
  rw [step_of_input_event hin (decode_tickWord c)]
  exact exec_tick_folded c ha hx hs.byteCur_lt

/-- R63, R66, R74: a run of ticks that fold counts them in the position and in the LFSR, and keeps the consumer's registers. -/
theorem run_of_tickWords (draws : List Bit) (rest : List Input) {s : State} (hs : Inv Config.params s)
    (hf : s.tickFate = .folds) (hin : s.inputs = tickWords draws ++ rest) :
    ∃ t, runSteps draws.length s = .next t ∧ t.inputs = rest ∧
      8 * t.byteCur + t.bitCur.toNat =
        (8 * s.byteCur + s.bitCur.toNat + draws.length) % (8 * Config.poolSize) ∧
      t.lfsr = lfsrStep^[draws.length] s.lfsr ∧
      t.xstate = s.xstate ∧ t.remain = s.remain ∧ t.acc = s.acc := by
  induction draws generalizing s with
  | nil =>
    have hk : s.byteCur < Config.poolSize := hs.byteCur_lt
    have hb := s.bitCur.isLt
    have inside : 8 * s.byteCur + s.bitCur.toNat < 8 * Config.poolSize := by omega
    exact ⟨s, rfl, hin, (Nat.mod_eq_of_lt inside).symm, rfl, rfl, rfl, rfl⟩
  | cons c draws ih =>
    have hstep := step_of_tickWord hs hf hin
    obtain ⟨u, hu, hinv⟩ := step_keeps_inv hs
    obtain rfl := Host.Outcome.next.inj (hstep.symm.trans hu)
    obtain ⟨t, ht, hrest, hpos, hlfsr, hx, hm, hacc⟩ := ih hinv hf rfl
    have position := advance_position (b := s.bitCur) hs.byteCur_lt
    refine ⟨t, (runSteps_succ _ hstep).trans ht, hrest, ?_, hlfsr, hx, hm, hacc⟩
    calc 8 * t.byteCur + t.bitCur.toNat
        = ((8 * s.byteCur + s.bitCur.toNat + 1) % (8 * Config.poolSize) + draws.length) % (8 * Config.poolSize) :=
          hpos.trans (congrArg (fun q => (q + draws.length) % (8 * Config.poolSize)) position)
      _ = (8 * s.byteCur + s.bitCur.toNat + (draws.length + 1)) % (8 * Config.poolSize) := by
          rw [Nat.mod_add_mod, Nat.add_assoc, Nat.add_comm 1]

/-! ## The bits a run folds, and the bytes it completes -/

@[simp] theorem fetch_snd_bitCur (s : State) : (fetch s).2.bitCur = s.bitCur := by
  obtain ⟨_, _, h⟩ := fetch_state s; rw [h]

@[simp] theorem fetch_snd_lfsr (s : State) : (fetch s).2.lfsr = s.lfsr := by
  obtain ⟨_, _, h⟩ := fetch_state s; rw [h]

@[simp] theorem fetch_snd_armed (s : State) : (fetch s).2.armed = s.armed := by
  obtain ⟨_, _, h⟩ := fetch_state s; rw [h]

@[simp] theorem fetch_snd_tickPend (s : State) : (fetch s).2.tickPend = s.tickPend := by
  obtain ⟨_, _, h⟩ := fetch_state s; rw [h]

@[simp] theorem fetch_snd_view (s : State) : (fetch s).2.view = s.view := by simp [State.view]

/-- R61, R64: the bit of a TICK that folds. -/
theorem foldBit_of_tick {s : State} {c : Bit} (h : decode (fetch s).1 = .ok (.tick c)) :
    foldBit s = if s.tickFate = .folds then some (mix (lfsrStep s.lfsr) c) else none := by
  simp [foldBit, h]

/-- R64, R80: the bit of the pended fold. -/
theorem foldBit_of_remove {s : State} {c : Bit} (h : decode (fetch s).1 = .ok (.remove c)) :
    foldBit s = if s.tickPend then some (mix (lfsrStep s.lfsr) c) else none := by
  simp [foldBit, h]

/-- R61, R80: nothing but TICK and REMOVE folds. -/
theorem foldBit_eq_none {s : State} (htick : ∀ c, decode (fetch s).1 ≠ .ok (.tick c))
    (hremove : ∀ c, decode (fetch s).1 ≠ .ok (.remove c)) : foldBit s = none := by
  unfold foldBit
  split
  · exact absurd ‹_› (htick _)
  · exact absurd ‹_› (hremove _)
  · rfl

theorem completion_of_no_fold {s : State} (h : foldBit s = none) : completion s = none := by simp [completion, h]

/-- R73: below bit 7 a fold completes no byte. -/
theorem completion_of_lt_seven {s : State} (hb : s.bitCur.toNat < 7) : completion s = none := by
  have h7 : s.bitCur ≠ 7#3 := by rintro h; simp [h] at hb
  cases hf : foldBit s <;> simp [completion, hf, h7]

/-- R73: at bit 7 it completes the byte of the partial bits and its own. -/
theorem completion_of_seven {s : State} {r : Bit} (hf : foldBit s = some r) (hb : s.bitCur = 7#3) :
    completion s = some (byteOfBits (s.view.part ++ [r])) := by
  simp [completion, hf, hb]

/-- R33, R73: at bit 7 the partial bits and one more are the bits of the byte they form. -/
theorem State.bitsOfByte_complete {s : State} (hb : s.bitCur = 7#3) (r : Bit) :
    bitsOfByte (byteOfBits (s.view.part ++ [r])) = s.view.part ++ [r] := by
  have whole : s.view.part ++ [r] = bitsOfByte (setBit (s.pool.read s.byteCur) s.bitCur r) := by
    have h8 : s.bitCur.toNat + 1 = 8 := by simp [hb]
    exact (map_getLsbD_setBit _ _ _).symm.trans (congrArg (List.map _ <| List.range ·) h8)
  rw [whole, byteOfBits_bitsOfByte]

/-- R73, R74: the partial byte after a fold, whether the byte it completes joins the queue or wraps. -/
theorem View.fold_part (n : Nat) (r : Bit) (v : View) :
    (v.fold n r).part = if v.part.length < 7 then v.part ++ [r] else [] := by
  unfold View.fold
  split
  · rfl
  · split <;> rfl

/-- R54, R93: an INIT that is no restart meets a busy block, which turns it away. -/
theorem busy_of_init {s : State} (h : decode (fetch s).1 = .ok .init) (hr : restarts s = false) : s.xstate ≠ .idle := by
  simpa [restarts, h] using hr

/-- R45, R61: on the queue a TICK is a fold or nothing. -/
theorem view_tick {p : Params} {c : Bit} {s t : State} (hm : s.pool.wf p.poolSize = true) (h : tick p c s = .ok t) :
    t.view = if s.tickFate = .folds then s.view.fold p.poolSize (mix (lfsrStep s.lfsr) c) else s.view := by
  simp only [State.tickFate_folds_iff]
  rcases tick_cases h with ⟨ha, rfl⟩ | ⟨_, hx, rfl⟩ | ⟨ha, hx, hf⟩
  · simp [ha]
  · rw [if_neg fun hfolds => hfolds.2 hx]
    rfl
  · rw [if_pos ⟨ha, hx⟩]
    exact view_fold hm hf

@[simp] theorem fetch_snd_tickFate (s : State) : (fetch s).2.tickFate = s.tickFate := by
  simp [State.tickFate, State.mask]

/-- R93: without a restart an event that is neither TICK nor REMOVE leaves the queue. -/
theorem step_view_of_no_fold {s t : State} {i : Instr} (hi : decode (fetch s).1 = .ok i) (hr : restarts s = false)
    (htick : ∀ c, i ≠ .tick c) (hremove : ∀ c, i ≠ .remove c) (h : exec i (fetch s).2 = .next t) : t.view = s.view := by
  have hreset : i ≠ .reset := by
    rintro rfl
    cases hr.symm.trans (restarts_of_reset hi)
  by_cases hinit : i = .init
  · subst hinit
    have hx : (fetch s).2.xstate ≠ .idle := by simpa using busy_of_init hi hr
    rw [← Host.Outcome.next.inj ((exec_command_busy rfl hx).symm.trans h), fetch_snd_view]
  · rw [exec_consumer_frame h hreset hinit htick hremove]
    exact fetch_snd_view s

/-- R61, R73, R80, R90: without a restart a step runs no fold and keeps the partial byte, or folds one bit into a queue with
that partial byte. -/
theorem step_view_cases {s t : State} (hm : s.pool.wf Config.poolSize = true) (hr : restarts s = false)
    (h : step s = .next t) :
    (foldBit s = none ∧ t.view.part = s.view.part) ∨
      ∃ (r : Bit) (v : View), foldBit s = some r ∧ v.part = s.view.part ∧ t.view = v.fold Config.poolSize r := by
  rw [← fetch_snd_pool] at hm
  rcases step_cases h with ⟨i, hi, he⟩ | ⟨r, hi, ho⟩
  · by_cases htick : ∃ c, i = .tick c
    · obtain ⟨c, rfl⟩ := htick
      have hview := view_tick (p := Config.params) hm ((outcome_next_iff _ _).1 he)
      rw [fetch_snd_tickFate, fetch_snd_lfsr, fetch_snd_view] at hview
      rw [foldBit_of_tick hi, hview]
      by_cases hf : s.tickFate = .folds
      · exact .inr ⟨_, s.view, if_pos hf, rfl, if_pos hf⟩
      · exact .inl ⟨if_neg hf, by rw [if_neg hf]⟩
    by_cases hremove : ∃ c, i = .remove c
    · obtain ⟨c, rfl⟩ := hremove
      have hview := view_remove (p := Config.params) hm (inPhase_cases he).2
      rw [fetch_snd_tickPend, fetch_snd_lfsr, fetch_snd_view] at hview
      rw [foldBit_of_remove hi, hview]
      by_cases hp : s.tickPend = true
      · exact .inr ⟨_, s.view.dropFront, if_pos hp, rfl, if_pos hp⟩
      · exact .inl ⟨if_neg hp, by rw [if_neg hp]; rfl⟩
    have hnone : foldBit s = none := by
      refine foldBit_eq_none (fun c hc => htick ⟨c, ?_⟩) (fun c hc => hremove ⟨c, ?_⟩)
      all_goals exact Except.ok.inj (hi.symm.trans hc)
    exact .inl ⟨hnone, congrArg View.part
      (step_view_of_no_fold hi hr (fun c hc => htick ⟨c, hc⟩) (fun c hc => hremove ⟨c, hc⟩) he)⟩
  · cases ho
    exact .inl ⟨foldBit_eq_none (by simp [hi]) (by simp [hi]), by simp⟩

/-- R73, R88: a step without a restart moves its bit into the partial byte, or the eight bits out as the byte it
completes. -/
theorem step_bits {s t : State} (hs : Inv Config.params s) (hr : restarts s = false) (h : step s = .next t) :
    s.view.part ++ (foldBit s).toList = (completion s).toList.flatMap bitsOfByte ++ t.view.part := by
  rcases step_view_cases hs.pool_wf hr h with ⟨hnone, hpart⟩ | ⟨r, v, hbit, hv, hview⟩
  · simp [completion_of_no_fold hnone, hnone, hpart]
  · rw [hview, View.fold_part, hv, State.length_view_part, hbit]
    by_cases hb : s.bitCur.toNat < 7
    · simp [completion_of_lt_seven hb, hb]
    · have h7 : s.bitCur = 7#3 := by bv_omega
      simp [completion_of_seven hbit h7, State.bitsOfByte_complete h7, hb]

/-- R73, R88: the bits of a run are the bits of the bytes it completes and those left over, in order. -/
theorem run_bits (n : Nat) {s : State} (hs : Inv Config.params s) (hn : never restarts n s = true) :
    ∃ t, runSteps n s = .next t ∧
      s.view.part ++ collect foldBit n s = (collect completion n s).flatMap bitsOfByte ++ t.view.part := by
  induction n generalizing s with
  | zero => exact ⟨s, rfl, by simp [collect]⟩
  | succ n ih =>
    obtain ⟨u, hu, hinv⟩ := step_keeps_inv hs
    rw [never_succ _ n hu, Bool.and_eq_true, Bool.not_eq_true'] at hn
    obtain ⟨hr, hn⟩ := hn
    obtain ⟨t, ht, hbits⟩ := ih hinv hn
    refine ⟨t, (runSteps_succ n hu).trans ht, ?_⟩
    rw [collect_succ _ n hu, collect_succ _ n hu, List.flatMap_append, ← List.append_assoc, step_bits hs hr hu,
      List.append_assoc, hbits, List.append_assoc]

end Sys2Proof.Machine

/-! ## The obligations on the Entropy Folder -/

namespace Sys2Proof.Proofs

open Sys2Proof.Machine

/-- Settles O25, by induction on the draws (`run_of_tickWords`): each fold moves the position by one modulo `8 * N`
(`advance_position`). -/
theorem ticksAdvanceThePositionModuloThePool : Obligations.TicksAdvanceThePositionModuloThePool :=
  fun _ draws rest hs hf hin => run_of_tickWords draws rest hs hf hin

/-- Settles O51, by induction on the run (`run_bits`): at every step the partial bits and the bit folded are the bits of the
byte completed, if any, and the partial bits after it (`step_bits`). -/
theorem everyCompletedByteIsEightConsecutiveFolds : Obligations.EveryCompletedByteIsEightConsecutiveFolds :=
  fun _ n hs hn => run_bits n hs hn

/-- Settles O17: the slots are read by `State.folded_read`, the bits of the one written by `setBit_getLsbD`. -/
theorem foldWritesOneBitOfOneSlot : Obligations.FoldWritesOneBitOfOneSlot := by
  intro s c ha hx hm hk
  have read := State.folded_read (p := Config.params) c hm
  refine ⟨_, exec_tick_folded c ha hx hk, rfl, fun i hi => ?_, fun j hj => ?_⟩
  · rw [read, if_neg hi]
  · rw [read, if_pos rfl, setBit_getLsbD _ _ _ j hj]

/-- Settles O20: the formula is `lfsrUnstep`, an inverse of LFSR_STEP on both sides. -/
theorem lfsrStepHasTheInverseOfTheRule : Obligations.LfsrStepHasTheInverseOfTheRule := by
  intro s'
  refine ⟨lfsrStep_lfsrUnstep s', fun u hu => ?_⟩
  rw [← hu]
  exact (lfsrUnstep_lfsrStep u).symm

/-- Settles O22: a bit moves down one place per step (`lfsrStep_iterate_getLsbD`), so bit 31 of the state after the `n+1`-th
step, which is the feedback of the one before, is bit 0 after 31 more. -/
theorem lowBitsAreSeedBitsThenFeedback : Obligations.LowBitsAreSeedBitsThenFeedback := by
  intro s n
  refine ⟨?_, fun _ hn => ?_, ?_⟩
  · rw [Function.iterate_succ_apply', lfsrStep_getLsbD_low _ (by decide)]
  · rw [lfsrStep_iterate_getLsbD n s (by omega), Nat.zero_add]
  · calc (lfsrStep^[n + 32] s).getLsbD 0
        = (lfsrStep^[31] (lfsrStep^[n + 1] s)).getLsbD 0 := by
          rw [← Function.iterate_add_apply, Nat.add_comm 31, Nat.add_assoc]
      _ = (lfsrStep (lfsrStep^[n] s)).getLsbD 31 := by
          rw [lfsrStep_iterate_getLsbD 31 _ (by decide), Function.iterate_succ_apply']
      _ = lfsrFeedback (lfsrStep^[n] s) := lfsrStep_getLsbD_high _

/-- Settles O24: with `N-1` bytes and seven bits in the queue `View.fold` empties it. -/
theorem wrapDropsEveryReadyByte : Obligations.WrapDropsEveryReadyByte := by
  intro s c hs ha hx hk hb
  have hlt : s.byteCur < Config.poolSize := hs.byteCur_lt
  have last := advance_of_last (n := Config.poolSize) (congrArg BitVec.toNat hb) hk
  refine ⟨_, exec_tick_folded c ha hx hlt, hk, congrArg Prod.fst last, ?_, rfl, fun i hi => ?_⟩
  · have whole : ¬ s.view.part.length < 7 := by simp [hb]
    have full : ¬ s.view.complete.length + 1 < Config.poolSize := by rw [State.length_view_complete]; omega
    rw [view_fold (p := Config.params) hs.pool_wf (fold_eq_folded c hlt)]
    exact (if_neg whole).trans (if_neg full)
  · rw [State.folded_read (p := Config.params) c hs.pool_wf, if_neg hi]

/-- Settles O16: the word by `decode_tickWord`, and each arm with its state written out. -/
theorem tickFollowsItsThreeArms : Obligations.TickFollowsItsThreeArms :=
  ⟨decode_tickWord, fun _ c => ⟨exec_tick_of_unarmed c, exec_tick_of_crit c, exec_tick_folded c⟩⟩

/-- Settles O18: `lfsrStep`, bit by bit. -/
theorem foldStepsTheLfsr : Obligations.FoldStepsTheLfsr := by
  intro s c ha hx hk
  exact ⟨_, exec_tick_folded c ha hx hk, lfsrStep_getLsbD_high s.lfsr,
    fun i hi => lfsrStep_getLsbD_low s.lfsr (Nat.lt_succ_of_le hi)⟩

/-- Settles O19, case by case of `advance`. -/
theorem foldAdvancesTheCursors : Obligations.FoldAdvancesTheCursors := by
  intro s c ha hx hk
  have cursors {k : Nat} {b : BitVec 3} (h : advance Config.poolSize s.byteCur s.bitCur = (k, b)) :
      (s.folded Config.params c).byteCur = k ∧ (s.folded Config.params c).bitCur.toNat = b.toNat :=
    ⟨congrArg Prod.fst h, congrArg (fun kb => kb.2.toNat) h⟩
  refine ⟨_, exec_tick_folded c ha hx hk, rfl, fun hb => ?_, fun hb hlt => cursors (advance_of_seven hb hlt),
    fun hb hlast => cursors (advance_of_last hb hlast)⟩
  obtain ⟨hbyte, hbit⟩ := cursors (advance_of_lt_seven hb)
  exact ⟨hbyte, by rw [hbit]; bv_omega⟩

/-- Settles O21: the fixed point is computed, and no other value steps to zero (`lfsrStep_ne_zero`). -/
theorem onlyZeroStepsToZero : Obligations.OnlyZeroStepsToZero := by
  intro s
  refine ⟨fun h => ?_, ?_⟩
  · by_contra hs
    exact lfsrStep_ne_zero hs h
  · rintro rfl
    rfl

end Sys2Proof.Proofs

namespace Sys2Proof.Machine

/-! ## What a step takes from the queue and adds to it (R45, R86) -/

/-- R45, R73, R74: the completed bytes after a fold. -/
theorem View.fold_complete (n : Nat) (r : Bit) (v : View) :
    (v.fold n r).complete =
      if v.part.length < 7 then v.complete
      else if v.complete.length + 1 < n then v.complete ++ [byteOfBits (v.part ++ [r])] else [] := by
  unfold View.fold
  split
  · rfl
  · split <;> rfl

/-- R45, R78, R79: the byte that a REMOVE delivers, if any, is what it drops from the front. -/
theorem delivery_append_dropFront {s : State} {c : Bit} (h : decode (fetch s).1 = .ok (.remove c)) :
    s.view.complete = (delivery s).toList ++ s.view.dropFront.complete := by
  rw [delivery_of_remove h]
  by_cases h1 : 1 ≤ s.byteCur
  · rw [if_pos ((State.ready_iff s).2 h1)]
    exact List.eq_cons_of_mem_head? (State.view_complete_head? h1)
  · rw [if_neg (by simpa using h1), State.view_dropFront_of_empty (by omega)]
    rfl

/-- R45, R80: without a restart a step delivers the front of the queue or nothing, and then folds one bit into the rest or
nothing. -/
theorem step_queue {s t : State} (hm : s.pool.wf Config.poolSize = true) (hr : restarts s = false)
    (h : step s = .next t) :
    ∃ v : View, s.view.complete = (delivery s).toList ++ v.complete ∧ v.part = s.view.part ∧
      t.view = (foldBit s).elim v (View.fold Config.poolSize · v) := by
  have noDelivery (hd : ∀ c, decode (fetch s).1 ≠ .ok (.remove c)) :
      s.view.complete = (delivery s).toList ++ s.view.complete := by rw [delivery_eq_none hd]; rfl
  rw [← fetch_snd_pool] at hm
  rcases step_cases h with ⟨i, hi, he⟩ | ⟨r, hi, ho⟩
  · have other {j : Instr} (hij : i ≠ j) : decode (fetch s).1 ≠ .ok j := fun hj => hij (Except.ok.inj (hi.symm.trans hj))
    by_cases htick : ∃ c, i = .tick c
    · obtain ⟨c, rfl⟩ := htick
      have hview := view_tick (p := Config.params) hm ((outcome_next_iff _ _).1 he)
      rw [fetch_snd_tickFate, fetch_snd_lfsr, fetch_snd_view] at hview
      refine ⟨s.view, noDelivery fun _ => other (by simp), rfl, ?_⟩
      rw [hview, foldBit_of_tick hi]
      split <;> rfl
    by_cases hremove : ∃ c, i = .remove c
    · obtain ⟨c, rfl⟩ := hremove
      have hview := view_remove (p := Config.params) hm (inPhase_cases he).2
      rw [fetch_snd_tickPend, fetch_snd_lfsr, fetch_snd_view] at hview
      refine ⟨s.view.dropFront, delivery_append_dropFront hi, rfl, ?_⟩
      rw [hview, foldBit_of_remove hi]
      split <;> rfl
    · have noTick (c : Bit) : i ≠ .tick c := fun hc => htick ⟨c, hc⟩
      have noRemove (c : Bit) : i ≠ .remove c := fun hc => hremove ⟨c, hc⟩
      refine ⟨s.view, noDelivery fun c => other (noRemove c), rfl, ?_⟩
      rw [foldBit_eq_none (fun c => other (noTick c)) (fun c => other (noRemove c))]
      exact step_view_of_no_fold hi hr noTick noRemove he
  · cases ho
    exact ⟨s.view, noDelivery (by simp [hi]), rfl, by simp [foldBit_eq_none, hi]⟩

/-- R45, R74, R86: without a restart a step moves the byte it delivers out of the queue and the byte it completes into it,
unless it wraps, which empties the queue. -/
theorem step_complete {s t : State} (hs : Inv Config.params s) (hr : restarts s = false) (h : step s = .next t) :
    (delivery s).toList ++ t.view.complete = s.view.complete ++ (completion s).toList ∨
      (wraps s = true ∧ t.view.complete = []) := by
  obtain ⟨v, hcomplete, hpart, hview⟩ := step_queue hs.pool_wf hr h
  cases hbit : foldBit s with
  | none =>
    rw [hbit] at hview
    exact .inl (by simp [completion_of_no_fold hbit, hview, hcomplete])
  | some r =>
    rw [hbit] at hview
    have after := View.fold_complete Config.poolSize r v
    rw [← show t.view = v.fold Config.poolSize r from hview, hpart, State.length_view_part] at after
    by_cases hb : s.bitCur.toNat < 7
    · rw [if_pos hb] at after
      exact .inl (by simp [completion_of_lt_seven hb, after, hcomplete])
    · have hdone := completion_of_seven hbit (by bv_omega : s.bitCur = 7#3)
      rw [if_neg hb] at after
      by_cases hN : v.complete.length + 1 < Config.poolSize
      · rw [if_pos hN] at after
        exact .inl (by simp [hdone, after, hcomplete])
      · rw [if_neg hN] at after
        have hlength := congrArg List.length hcomplete
        rw [State.length_view_complete, List.length_append] at hlength
        have hk : s.byteCur < Config.poolSize := hs.byteCur_lt
        have last : s.byteCur - (delivery s).toList.length = Config.poolSize - 1 := by omega
        exact .inr ⟨by simp [wraps, hdone, last], after⟩

/-- R93, R114: a restart is a RESET, or an INIT in IDLE. -/
theorem restarts_cases {s : State} (h : restarts s = true) :
    decode (fetch s).1 = .ok .reset ∨ (decode (fetch s).1 = .ok .init ∧ s.xstate = .idle) := by
  unfold restarts at h
  split at h
  case h_1 hd => exact .inl hd
  case h_2 hd => exact .inr ⟨hd, by simpa [State.busy] using h⟩
  case h_3 => cases h

/-- R93, R114: a restart empties the queue, and delivers nothing. -/
theorem step_of_restart {s t : State} (hr : restarts s = true) (h : step s = .next t) :
    t.view.complete = [] ∧ delivery s = none := by
  rcases restarts_cases hr with hd | ⟨hd, hx⟩
  · rw [step_of_event hd] at h
    cases h
    exact ⟨rfl, delivery_eq_none (by simp [hd])⟩
  · rw [step_of_event hd] at h
    rcases acceptCommand_cases h with ⟨_, rfl⟩ | ⟨hbusy, _⟩
    · exact ⟨rfl, delivery_eq_none (by simp [hd])⟩
    · exact absurd (by simpa using hx) hbusy

/-- R78, R86: what a step delivers stands at the front of the queue. -/
theorem delivery_isPrefix (s : State) : (delivery s).toList <+: s.view.complete := by
  by_cases h : ∃ c, decode (fetch s).1 = .ok (.remove c)
  · obtain ⟨c, hc⟩ := h
    exact ⟨_, (delivery_append_dropFront hc).symm⟩
  · rw [delivery_eq_none fun c hc => h ⟨c, hc⟩]
    exact ⟨_, rfl⟩

/-- R86, R87: whatever a step loses, what it delivers and what it leaves in the queue is a subsequence of the queue and the
byte it completes. -/
theorem step_sublist {s t : State} (hs : Inv Config.params s) (h : step s = .next t) :
    ((delivery s).toList ++ t.view.complete).Sublist (s.view.complete ++ (completion s).toList) := by
  have emptied (he : t.view.complete = []) :
      ((delivery s).toList ++ t.view.complete).Sublist (s.view.complete ++ (completion s).toList) := by
    rw [he, List.append_nil]
    exact (delivery_isPrefix s).sublist.trans (List.sublist_append_left _ _)
  cases hr : restarts s with
  | true => exact emptied (step_of_restart hr h).1
  | false =>
    rcases step_complete hs hr h with heq | ⟨_, he⟩
    · exact heq ▸ List.Sublist.refl _
    · exact emptied he

/-- R86: the bytes of a run are delivered in the order of their completion. -/
theorem run_sublist (n : Nat) {s : State} (hs : Inv Config.params s) :
    (collect delivery n s).Sublist (s.view.complete ++ collect completion n s) := by
  induction n generalizing s with
  | zero => exact List.nil_sublist _
  | succ n ih =>
    obtain ⟨u, hu, hinv⟩ := step_keeps_inv hs
    rw [collect_succ _ n hu, collect_succ _ n hu, ← List.append_assoc]
    calc List.Sublist ((delivery s).toList ++ collect delivery n u)
          ((delivery s).toList ++ (u.view.complete ++ collect completion n u)) := (ih hinv).append_left _
      List.Sublist _ (s.view.complete ++ (completion s).toList ++ collect completion n u) := by
        rw [← List.append_assoc]
        exact (step_sublist hs hu).append_right _

/-- R86: in a run without restart and wrap every byte is delivered or still in the queue. -/
theorem run_complete (n : Nat) {s : State} (hs : Inv Config.params s)
    (hn : never (fun u => restarts u || wraps u) n s = true) :
    ∃ t, runSteps n s = .next t ∧
      collect delivery n s ++ t.view.complete = s.view.complete ++ collect completion n s := by
  induction n generalizing s with
  | zero => exact ⟨s, rfl, by simp [collect]⟩
  | succ n ih =>
    obtain ⟨u, hu, hinv⟩ := step_keeps_inv hs
    rw [never_succ _ n hu] at hn
    simp only [Bool.and_eq_true, Bool.not_eq_true', Bool.or_eq_false_iff] at hn
    obtain ⟨⟨hr, hw⟩, hn⟩ := hn
    obtain ⟨t, ht, hrun⟩ := ih hinv hn
    have hstep : (delivery s).toList ++ u.view.complete = s.view.complete ++ (completion s).toList := by
      rcases step_complete hs hr hu with heq | ⟨hwrap, _⟩
      · exact heq
      · cases hw.symm.trans hwrap
    refine ⟨t, (runSteps_succ n hu).trans ht, ?_⟩
    rw [collect_succ _ n hu, collect_succ _ n hu, List.append_assoc, hrun, ← List.append_assoc, hstep, List.append_assoc]

/-! ## The wait for a byte (R76, R85) -/

@[simp] theorem fetch_snd_inputs (s : State) : (fetch s).2.inputs = s.inputs.tail := by
  cases h : s.inputs with
  | nil => rw [fetch_nil h]; exact h
  | cons x rest => rw [fetch_cons h]; rfl

/-- R53, R56: an event that is no micro-step comes from the first input. -/
theorem inputs_of_port_event {s : State} {i : Instr} (h : decode (fetch s).1 = .ok i) (hi : i.format ≠ .xst) :
    ∃ x rest, s.inputs = x :: rest ∧ decode (inputWord s.xstate x) = .ok i := by
  cases hin : s.inputs with
  | nil =>
    rw [fetch_nil hin] at h
    exact absurd (format_of_decode h) hi
  | cons x rest =>
    rw [fetch_cons hin] at h
    exact ⟨x, rest, rfl, h⟩

/-- R49: the input of a RESET raises it. -/
theorem raisesReset_of_decode {p : XState} {x : Input} (h : decode (inputWord p x) = .ok .reset) :
    raisesReset x = true := by
  have only : ∀ w : BitVec 1, decode (.rst w) = .ok .reset → raisesReset (.rst w) = true := by decide
  cases x with
  | rst w => exact only w h
  | cmd w => cases format_of_decode h
  | evt w => cases format_of_decode h
  | micro c => cases format_of_decode h

/-- R53: the input of a TICK raises it. -/
theorem raisesTick_of_decode {p : XState} {x : Input} {c : Bit} (h : decode (inputWord p x) = .ok (.tick c)) :
    raisesTick x = true := by
  cases x with
  | rst w => cases format_of_decode h
  | cmd w => cases format_of_decode h
  | micro c => cases format_of_decode h
  | evt w =>
    simp only [inputWord, decode, decodeEvt] at h
    split at h
    case h_1 ht => exact ht
    case h_2 => cases h

/-- A command waits, no byte is ready, no RESET is listed, and the ticks listed are too few to complete the partial byte
(R85). -/
structure Starved (s : State) : Prop where
  wait : s.xstate = .wait
  empty : s.byteCur = 0
  noReset : s.inputs.all (fun i => !raisesReset i) = true
  fewTicks : s.bitCur.toNat + (s.inputs.filter raisesTick).length < 8

/-- R54, R61, R76: in WAIT with no byte ready, nothing but RESET and a TICK that folds has an effect. -/
theorem exec_of_empty_wait {i : Instr} {s t : State} (hx : s.xstate = .wait) (h0 : s.byteCur = 0) (hreset : i ≠ .reset)
    (h : exec i s = .next t) : t = s ∨ ∃ c, i = .tick c ∧ t = s.folded Config.params c := by
  have command (hi : i.format = .cmd) : t = s := by
    rw [exec_command_busy hi (by simp [hx])] at h
    exact (Host.Outcome.next.inj h).symm
  cases i with
  | reset => exact absurd rfl hreset
  | nop => exact .inl (command rfl)
  | init => exact .inl (command rfl)
  | nextByte => exact .inl (command rfl)
  | nextInt => exact .inl (command rfl)
  | nextLong => exact .inl (command rfl)
  | reserved5 => exact .inl (command rfl)
  | reserved6 => exact .inl (command rfl)
  | reserved7 => exact .inl (command rfl)
  | tick c =>
    rcases tick_cases ((outcome_next_iff _ _).1 h) with ⟨_, ht⟩ | ⟨_, hcrit, _⟩ | ⟨_, _, hf⟩
    · exact .inl ht
    · cases hx.symm.trans hcrit
    · exact .inr ⟨c, rfl, (fold_cases hf).2⟩
  | poll =>
    rw [(poll_cases h).2]
    exact .inl (if_neg (by simp [h0]))
  | enter => cases hx.symm.trans (enter_cases h).1
  | remove c => cases hx.symm.trans (inPhase_cases h).1

/-- R53: taking an input lists no RESET and no further tick. -/
theorem Starved.fetched {s : State} (h : Starved s) : Starved (fetch s).2 where
  wait := by simpa using h.wait
  empty := by simpa using h.empty
  noReset := by
    rw [fetch_snd_inputs, List.all_eq_true]
    exact fun x hx => List.all_eq_true.1 h.noReset x (List.mem_of_mem_tail hx)
  fewTicks := by
    have fewer := ((List.tail_sublist s.inputs).filter raisesTick).length_le
    have := h.fewTicks
    rw [fetch_snd_inputs, fetch_snd_bitCur]
    omega

/-- R66, R85: a TICK among too few takes the partial byte on by one bit and does not complete it. -/
theorem Starved.folded {s : State} {c : Bit} (h : Starved s) (hc : decode (fetch s).1 = .ok (.tick c)) :
    Starved ((fetch s).2.folded Config.params c) := by
  obtain ⟨x, rest, hin, hx⟩ := inputs_of_port_event hc (by simp [Instr.format])
  have few := h.fewTicks
  rw [hin, List.filter_cons_of_pos (raisesTick_of_decode hx), List.length_cons] at few
  have below : (fetch s).2.bitCur.toNat < 7 := by rw [fetch_snd_bitCur]; omega
  have cursors := advance_of_lt_seven (n := Config.poolSize) (k := (fetch s).2.byteCur) below
  exact {
    wait := h.fetched.wait
    empty := (congrArg Prod.fst cursors).trans h.fetched.empty
    noReset := h.fetched.noReset
    fewTicks := by
      have next : ((fetch s).2.folded Config.params c).bitCur = s.bitCur + 1#3 :=
        (congrArg Prod.snd cursors).trans (by rw [fetch_snd_bitCur])
      have listed : ((fetch s).2.folded Config.params c).inputs = rest :=
        (fetch_snd_inputs s).trans (congrArg List.tail hin)
      rw [next, listed]
      bv_omega }

/-- R76, R85: a starved wait is still one after the step, and neither answers nor counts a byte off. -/
theorem Starved.step {s t : State} (h : Starved s) (ht : step s = .next t) :
    Starved t ∧ t.result = none ∧ t.remain = s.remain := by
  rcases step_cases ht with ⟨i, hi, he⟩ | ⟨r, _, ho⟩
  · have hreset : i ≠ .reset := by
      rintro rfl
      obtain ⟨x, rest, hin, hx⟩ := inputs_of_port_event hi (by simp [Instr.format])
      have := h.noReset
      simp [hin, raisesReset_of_decode hx] at this
    rcases exec_of_empty_wait h.fetched.wait h.fetched.empty hreset he with rfl | ⟨c, rfl, rfl⟩
    · exact ⟨h.fetched, fetch_snd_result s, fetch_snd_remain s⟩
    · exact ⟨h.folded hi, fetch_snd_result s, fetch_snd_remain s⟩
  · cases ho
    exact ⟨h.fetched, fetch_snd_result s, fetch_snd_remain s⟩

/-- R85: a starved wait goes on for any number of steps. -/
theorem Starved.run (n : Nat) {s : State} (h : Starved s) (hs : Inv Config.params s) :
    ∃ t, runSteps (n + 1) s = .next t ∧ Starved t ∧ t.result = none ∧ t.remain = s.remain := by
  induction n generalizing s with
  | zero =>
    obtain ⟨t, ht, _⟩ := step_keeps_inv hs
    exact ⟨t, runSteps_succ 0 ht, h.step ht⟩
  | succ n ih =>
    obtain ⟨u, hu, hinv⟩ := step_keeps_inv hs
    obtain ⟨hstarved, _, hremain⟩ := h.step hu
    obtain ⟨t, ht, hstarved', hresult, hremain'⟩ := ih hstarved hinv
    exact ⟨t, (runSteps_succ (n + 1) hu).trans ht, hstarved', hresult, hremain'.trans hremain⟩

/-! ## REMOVE and its exit (R78 to R80) -/

/-- R76: POLL with a byte ready. -/
theorem exec_poll_of_ready {s : State} (hx : s.xstate = .wait) (h1 : 1 ≤ s.byteCur) :
    exec .poll s = .next (s.toPhase .grant) :=
  (if_pos hx).trans (congrArg Host.Outcome.next (if_pos ((State.ready_iff s).2 h1)))

/-- R76: POLL with no byte ready. -/
theorem exec_poll_of_empty {s : State} (hx : s.xstate = .wait) (h0 : s.byteCur = 0) : exec .poll s = .next s :=
  (if_pos hx).trans (congrArg Host.Outcome.next (if_neg (by simp [h0])))

/-- R77: ENTER in its phase. -/
theorem exec_enter_of_grant {s : State} (hx : s.xstate = .grant) : exec .enter s = .next (s.toPhase .crit) := if_pos hx

/-- The state that REMOVE hands to its exit: the extraction of R78, or the way back of R79. -/
def State.removed (p : Params) (s : State) : State := if s.ready then s.extracted p else s.toPhase .wait

section
variable {p : Params} {s : State}

theorem State.removed_of_ready (h1 : 1 ≤ s.byteCur) : s.removed p = s.extracted p :=
  if_pos ((State.ready_iff s).2 h1)

theorem State.removed_of_empty (h0 : s.byteCur = 0) : s.removed p = s.toPhase .wait := if_neg (by simp [h0])

/-- R78, R79: REMOVE writes the pool, `BYTE_CUR`, the consumer's registers and the result before its exit. -/
theorem State.removed_frame (p : Params) (s : State) :
    s.removed p = { s with pool := (s.removed p).pool, byteCur := s.byteCur - 1, acc := (s.removed p).acc
                           remain := (s.removed p).remain, xstate := (s.removed p).xstate
                           result := (s.removed p).result } := by
  by_cases h1 : 1 ≤ s.byteCur
  · rw [State.removed_of_ready h1]
    rfl
  · have h0 : s.byteCur - 1 = s.byteCur := by omega
    rw [State.removed_of_empty (by omega), h0]
    rfl

/-- R78, R79: either way REMOVE leaves the critical section. -/
theorem State.removed_xstate_ne_crit (p : Params) (s : State) : (s.removed p).xstate ≠ .crit := by
  by_cases h1 : 1 ≤ s.byteCur
  · rw [State.removed_of_ready h1]
    by_cases hr : s.remain - 1#3 = 0#3 <;> simp [State.extracted, hr]
  · rw [State.removed_of_empty (by omega)]
    simp

/-- R80: the removal does not look at `TICK_PEND`. -/
theorem State.removed_withPend (p : Params) (v : Bool) (s : State) :
    (s.withPend v).removed p = (s.removed p).withPend v :=
  (apply_ite (State.withPend v) (s.ready = true) (s.extracted p) (s.toPhase .wait)).symm

/-- R80: REMOVE is the removal, then the exit. -/
theorem remove_eq_exitSection (c : Bit) (hk : s.byteCur < p.poolSize) :
    remove p c s = exitSection p c (s.removed p) := by
  by_cases h1 : 1 ≤ s.byteCur
  · rw [State.removed_of_ready h1, remove_of_ready c h1 hk]
  · rw [State.removed_of_empty (by omega), remove_of_empty p c (by omega)]

/-- R80: REMOVE with no tick pending. -/
theorem exec_remove_of_unpended (c : Bit) (hx : s.xstate = .crit) (hk : s.byteCur < Config.poolSize)
    (hp : s.tickPend = false) : exec (.remove c) s = .next (s.removed Config.params) := by
  have unpended : (s.removed Config.params).tickPend = false := by rw [State.removed_frame]; exact hp
  rw [exec_remove_of_crit c hx, remove_eq_exitSection (p := Config.params) c hk, exitSection, unpended]
  rfl

/-- R80: REMOVE with a tick pending is that tick on the state the removal produced, pending no more. -/
theorem exec_remove_of_pended (c : Bit) (hx : s.xstate = .crit) (hk : s.byteCur < Config.poolSize)
    (hp : s.tickPend = true) (ha : s.armed = true) :
    ∃ u, exec (.remove c) s = .next u ∧ exec (.tick c) ((s.removed Config.params).withPend false) = .next u ∧
      u.tickPend = false := by
  have frame := State.removed_frame Config.params s
  have pended : (s.removed Config.params).tickPend = true := by rw [frame]; exact hp
  have armed : (s.removed Config.params).armed = true := by rw [frame]; exact ha
  have inside : (s.removed Config.params).byteCur < Config.poolSize := by
    rw [frame]
    exact Nat.lt_of_le_of_lt (Nat.sub_le _ _) hk
  have folds := exec_tick_folded (s := (s.removed Config.params).withPend false) c armed
    (State.removed_xstate_ne_crit _ s) inside
  refine ⟨_, ?_, folds, rfl⟩
  rw [exec_remove_of_crit c hx, remove_eq_exitSection (p := Config.params) c hk, exitSection, if_pos pended,
    fold_eq_folded (p := Config.params) (s := (s.removed Config.params).withPend false) c inside]
  rfl

/-- R78: the slots after the extraction. -/
theorem State.extracted_read (hm : s.pool.wf p.poolSize = true) (hk : s.byteCur < p.poolSize) (i : Nat) :
    (s.extracted p).pool.read i =
      if i = s.byteCur then 0#8 else if i = p.poolSize - 1 then 0#8 else s.pool.read (i + 1) :=
  poolRemove_read hm (Nat.zero_lt_of_lt hk) i

end

/-! ## Runs: ticks that fill a byte, and the extraction (R73, R85, R89) -/

/-- A run of `m + n` steps is a run of `m` and then one of `n`. -/
theorem runSteps_add {m : Nat} {s t : State} (n : Nat) (h : runSteps m s = .next t) :
    runSteps (m + n) s = runSteps n t := by
  induction m generalizing s with
  | zero => cases h; rw [Nat.zero_add]
  | succ m ih =>
    cases hs : step s with
    | next u =>
      rw [runSteps_succ m hs] at h
      rw [Nat.succ_add, runSteps_succ _ hs, ih h]
    | fault f => simp [runSteps, hs] at h
    | refused r => simp [runSteps, hs] at h

/-- R28: the invariants hold after every run. -/
theorem run_keeps_inv (n : Nat) {s t : State} (hs : Inv Config.params s) (h : runSteps n s = .next t) :
    Inv Config.params t := by
  induction n generalizing s with
  | zero => cases h; exact hs
  | succ n ih =>
    obtain ⟨u, hu, hinv⟩ := step_keeps_inv hs
    rw [runSteps_succ n hu] at h
    exact ih hinv h

/-- R54: in IDLE a command takes its effect. -/
theorem acceptCommand_of_idle (f : State → State) {s : State} (hx : s.xstate = .idle) :
    acceptCommand f s = .next (f s) := if_neg (by simp [hx])

/-- R56: a micro-step takes the event its phase enables. -/
theorem step_of_micro {s : State} {x : XState} {c : Bit} {rest : List Input} {i : Instr} (hx : s.xstate = x)
    (hin : s.inputs = .micro c :: rest) (hd : decode (.xst x.code c) = .ok i) : step s = exec i (s.afterInput rest) :=
  step_of_input_event hin (by rw [hx]; exact hd)

/-- R89: from a wait with a byte ready, three micro-steps are the extraction. -/
theorem run_of_extraction {s : State} {ds : List Bit} {rest : List Input} (hs : Inv Config.params s)
    (hx : s.xstate = .wait) (h1 : 1 ≤ s.byteCur) (h3 : ds.length = 3) (hin : s.inputs = microSteps ds ++ rest) :
    runSteps 3 s = .next ((s.afterInput rest).extracted Config.params) := by
  obtain ⟨a, b, c, rfl⟩ := List.length_eq_three.1 h3
  have unpended : s.tickPend = false := by
    by_contra hp
    cases hx.symm.trans (hs.pend_crit (by simpa using hp))
  have poll : step s = .next ((s.afterInput (microSteps [b, c] ++ rest)).toPhase .grant) :=
    (step_of_micro hx hin (decode_xst_code .wait a)).trans (exec_poll_of_ready hx h1)
  have enter : step ((s.afterInput (microSteps [b, c] ++ rest)).toPhase .grant) =
      .next ((s.afterInput (microSteps [c] ++ rest)).toPhase .crit) :=
    (step_of_micro rfl rfl (decode_xst_code .grant b)).trans (exec_enter_of_grant rfl)
  have remove : step ((s.afterInput (microSteps [c] ++ rest)).toPhase .crit) =
      .next ((s.afterInput rest).extracted Config.params) := by
    rw [step_of_micro rfl rfl (decode_xst_code .crit c)]
    exact (exec_remove_of_unpended (s := (s.afterInput rest).toPhase .crit) c rfl hs.byteCur_lt unpended).trans
      (congrArg Host.Outcome.next (State.removed_of_ready (s := (s.afterInput rest).toPhase .crit) h1))
  rw [runSteps_succ 2 poll, runSteps_succ 1 enter, runSteps_succ 0 remove]
  rfl

/-- R64: the results of folds with these draws, from the LFSR `l` on. -/
def mixedBits (l : Word) (draws : List Bit) : List Bit :=
  List.zipWith (fun j c => (lfsrStep^[j + 1] l).getLsbD 0 ^^ c) (List.range draws.length) draws

/-- R62: the first fold steps the LFSR that the others start from. -/
theorem mixedBits_cons (l : Word) (c : Bit) (draws : List Bit) :
    mixedBits l (c :: draws) = mix (lfsrStep l) c :: mixedBits (lfsrStep l) draws := by
  simp only [mixedBits, List.length_cons, List.range_succ_eq_map, List.zipWith_cons_cons, List.zipWith_map_left]
  rfl

@[simp] theorem mixedBits_length (l : Word) (draws : List Bit) : (mixedBits l draws).length = draws.length := by
  simp [mixedBits]

/-- R63, R72: of the LFSR after `k` steps. -/
theorem mixedBits_iterate (k : Nat) (l : Word) (draws : List Bit) :
    mixedBits (lfsrStep^[k] l) draws =
      List.zipWith (fun j c => (lfsrStep^[k + j + 1] l).getLsbD 0 ^^ c) (List.range draws.length) draws := by
  have shift (j : Nat) : lfsrStep^[j + 1] (lfsrStep^[k] l) = lfsrStep^[k + j + 1] l := by
    rw [← Function.iterate_add_apply, Nat.add_comm, Nat.add_assoc]
  simp only [mixedBits, shift]

/-- R72: up to the 31st fold they are bits of `l` itself. -/
theorem mixedBits_of_length_le {l : Word} {draws : List Bit} (h : draws.length ≤ 31) :
    mixedBits l draws = List.zipWith (fun j c => l.getLsbD (j + 1) ^^ c) (List.range draws.length) draws := by
  refine List.ext_getElem (by simp [mixedBits]) fun j hj _ => ?_
  rw [mixedBits_length] at hj
  have low : (lfsrStep^[j + 1] l).getLsbD 0 = l.getLsbD (j + 1) := by
    rw [lfsrStep_iterate_getLsbD (j + 1) l (by omega), Nat.zero_add]
  simp only [mixedBits, List.getElem_zipWith, List.getElem_range, low]

/-- R45, R73: the bits that complete the partial byte of a queue with room for it append it. -/
theorem View.foldl_fold_completes {n : Nat} (bits : List Bit) {v : View} (hbits : bits ≠ [])
    (h8 : v.part.length + bits.length = 8) (hroom : v.complete.length + 1 < n) :
    bits.foldl (fun v r => v.fold n r) v = { complete := v.complete ++ [byteOfBits (v.part ++ bits)], part := [] } := by
  induction bits generalizing v with
  | nil => exact absurd rfl hbits
  | cons r rs ih =>
    rw [List.length_cons] at h8
    cases rs with
    | nil =>
      have whole : ¬ v.part.length < 7 := by rw [List.length_nil] at h8; omega
      simp [View.fold, whole, hroom]
    | cons r' rs =>
      have more : v.fold n r = { v with part := v.part ++ [r] } := if_pos (by rw [List.length_cons] at h8; omega)
      have fits : (v.part ++ [r]).length + (r' :: rs).length = 8 := by
        rw [List.length_append, List.length_singleton]
        omega
      rw [List.foldl_cons, more, ih (v := { v with part := v.part ++ [r] }) (by simp) fits hroom]
      simp

/-- R45, R63: ticks that fold write the producer's registers only, and fold their bits into the queue one by one. -/
theorem run_of_tickWords_view (draws : List Bit) (rest : List Input) {s : State} (hs : Inv Config.params s)
    (hf : s.tickFate = .folds) (hin : s.inputs = tickWords draws ++ rest) :
    ∃ t, runSteps draws.length s = .next t ∧
      t = { s with pool := t.pool, byteCur := t.byteCur, bitCur := t.bitCur, lfsr := lfsrStep^[draws.length] s.lfsr
                   result := t.result, inputs := rest } ∧
      t.view = (mixedBits s.lfsr draws).foldl (fun v r => v.fold Config.poolSize r) s.view := by
  induction draws generalizing s with
  | nil => exact ⟨s, rfl, by rw [← show s.inputs = rest from hin]; rfl, rfl⟩
  | cons c draws ih =>
    have hstep := step_of_tickWord hs hf hin
    obtain ⟨u, hu, hinv⟩ := step_keeps_inv hs
    obtain rfl := Host.Outcome.next.inj (hstep.symm.trans hu)
    obtain ⟨t, ht, hframe, hview⟩ := ih hinv hf rfl
    refine ⟨t, (runSteps_succ _ hstep).trans ht, hframe, ?_⟩
    rw [mixedBits_cons, List.foldl_cons, hview]
    congr 1
    exact view_fold (p := Config.params) (s := s.afterInput (tickWords draws ++ rest)) hs.pool_wf
      (fold_eq_folded c hs.byteCur_lt)

/-- An armed block with an empty pool (R85). -/
structure Drained (s : State) : Prop where
  inv : Inv Config.params s
  armed : s.armed = true
  byteCur : s.byteCur = 0
  bitCur : s.bitCur = 0#3

theorem Drained.view {s : State} (h : Drained s) : s.view = { complete := [], part := [] } := by
  simp [State.view, h.byteCur, h.bitCur]

/-- R73, R85: eight ticks on an empty pool form one byte in it. -/
theorem run_fills_byte {s : State} {draws : List Bit} {rest : List Input} (hs : Drained s) (hx : s.xstate ≠ .crit)
    (h8 : draws.length = 8) (hin : s.inputs = tickWords draws ++ rest) :
    ∃ t, runSteps 8 s = .next t ∧ Inv Config.params t ∧
      t = { s with pool := t.pool, byteCur := 1, bitCur := 0#3, lfsr := lfsrStep^[8] s.lfsr, result := t.result
                   inputs := rest } ∧
      t.view = { complete := [byteOfBits (mixedBits s.lfsr draws)], part := [] } := by
  obtain ⟨t, ht, hframe, hview⟩ :=
    run_of_tickWords_view draws rest hs.inv ((State.tickFate_folds_iff s).2 ⟨hs.armed, hx⟩) hin
  rw [h8] at ht hframe
  have hbits : mixedBits s.lfsr draws ≠ [] := List.ne_nil_of_length_eq_add_one (by rw [mixedBits_length, h8])
  rw [hs.view, View.foldl_fold_completes _ hbits (by simp [h8]) Proofs.two_le_poolSize] at hview
  have hbyte : t.byteCur = 1 := by rw [← State.length_view_complete, hview]; rfl
  have hbit : t.bitCur = 0#3 := by
    refine BitVec.eq_of_toNat_eq ?_
    rw [← State.length_view_part, hview]
    rfl
  exact ⟨t, ht, run_keeps_inv 8 hs.inv ht, by rwa [hbyte, hbit] at hframe, hview⟩

/-- R45: slot 0 is the front of the queue. -/
theorem State.read_front {s : State} {b : Byte} {q : List Byte} (hq : s.view.complete = b :: q) :
    s.pool.read 0 = b := by
  have h1 : 1 ≤ s.byteCur := by rw [← State.length_view_complete, hq]; simp
  have front := State.view_complete_head? h1
  rw [hq] at front
  exact (Option.some.inj front).symm

/-- R50, R81: the extraction of the last byte owed ends the command with its RESULT. -/
theorem State.extracted_of_last (p : Params) {s : State} (hr : s.remain = 1#3) :
    (s.extracted p).xstate = .idle ∧ (s.extracted p).result = some (shiftInByte s.acc (s.pool.read 0)) := by
  simp [State.extracted, hr]

/-- R81, R85: with a command waiting on an empty pool, eight ticks and one extraction accumulate the byte the folds formed,
and leave the pool empty. -/
theorem run_of_block {s : State} {draws ds : List Bit} {rest : List Input} (hs : Drained s) (hx : s.xstate = .wait)
    (h8 : draws.length = 8) (h3 : ds.length = 3) (hin : s.inputs = tickWords draws ++ (microSteps ds ++ rest)) :
    ∃ t, runSteps 11 s = .next t ∧ Drained t ∧
      t = ({ s with pool := t.pool, byteCur := 0, bitCur := 0#3, lfsr := lfsrStep^[8] s.lfsr, result := none
                    inputs := rest } : State).accumulate (byteOfBits (mixedBits s.lfsr draws)) := by
  obtain ⟨u, hu, hinv, hframe, hview⟩ := run_fills_byte hs (by simp [hx]) h8 hin
  have hwait : u.xstate = .wait := by rw [hframe]; exact hx
  have hready : u.byteCur = 1 := by rw [hframe]
  have hrun := (runSteps_add 3 hu).trans
    (run_of_extraction hinv hwait (Nat.le_of_eq hready.symm) h3 (congrArg State.inputs hframe))
  have registers (m : Memory) : ({ u.afterInput rest with pool := m, byteCur := u.byteCur - 1 } : State) =
      { s with pool := m, byteCur := 0, bitCur := 0#3, lfsr := lfsrStep^[8] s.lfsr, result := none, inputs := rest } := by
    rw [hframe]
    rfl
  have front : u.pool.read 0 = byteOfBits (mixedBits s.lfsr draws) := State.read_front (congrArg View.complete hview)
  refine ⟨_, hrun, ⟨run_keeps_inv 11 hs.inv hrun, ?_, ?_, ?_⟩, ?_⟩
  · exact (congrArg State.armed hframe).trans hs.armed
  · exact congrArg (· - 1) hready
  · exact congrArg State.bitCur hframe
  · rw [← front]
    exact congrArg (State.accumulate (u.pool.read 0)) (registers _)

/-- R23, R81: one byte fewer is owed. -/
theorem toNat_sub_one {r : BitVec 3} {n : Nat} (h : r.toNat = n + 1) : (r - 1#3).toNat = n := by bv_omega

/-- R73: the byte of the `p.2`-th block of eight draws, from the LFSR `l` at the start of the first. -/
def blockByte (l : Word) (p : (List Bit × List Bit) × Nat) : Byte :=
  byteOfBits (List.zipWith (fun j c => (lfsrStep^[8 * p.2 + j + 1] l).getLsbD 0 ^^ c) (List.range 8) p.1.1)

/-- R81 to R85: a command that waits on an empty pool for as many bytes as there are blocks ends with the last of them, and
its RESULT is their bytes, shifted in one after the other. The first block is the `k`-th since the LFSR was `l`. -/
theorem run_of_blocks (l : Word) (blocks : List (List Bit × List Bit)) (rest : List Input) {k : Nat} {s : State}
    (hs : Drained s) (hx : s.xstate = .wait) (hl : s.lfsr = lfsrStep^[8 * k] l) (howed : s.remain.toNat = blocks.length)
    (hshape : ∀ p ∈ blocks, p.1.length = 8 ∧ p.2.length = 3)
    (hin : s.inputs = (blocks.flatMap fun p => tickWords p.1 ++ microSteps p.2) ++ rest) :
    ∃ t, runSteps (11 * blocks.length) s = .next t ∧ Drained t ∧ t.inputs = rest ∧ t.xstate = .idle ∧
      t.lfsr = lfsrStep^[8 * (k + blocks.length)] l ∧
      t.result = some (((blocks.zipIdx k).map (blockByte l)).foldl shiftInByte s.acc) := by
  induction blocks generalizing k s with
  | nil =>
    have idle : s.xstate = .idle := hs.inv.idle_iff.2 (BitVec.eq_of_toNat_eq howed)
    cases hx.symm.trans idle
  | cons p blocks ih =>
    obtain ⟨h8, h3⟩ := hshape p List.mem_cons_self
    rw [List.flatMap_cons, List.append_assoc, List.append_assoc] at hin
    obtain ⟨u, hu, hdrained, hframe⟩ := run_of_block hs hx h8 h3 hin
    have byte : byteOfBits (mixedBits s.lfsr p.1) = blockByte l (p, k) := by rw [hl, mixedBits_iterate, h8, blockByte]
    have hacc : u.acc = shiftInByte s.acc (blockByte l (p, k)) := byte ▸ congrArg State.acc hframe
    have hlfsr : u.lfsr = lfsrStep^[8 * (k + 1)] l := by
      rw [congrArg State.lfsr hframe, Nat.mul_succ, Nat.add_comm, Function.iterate_add_apply, ← hl]
      rfl
    have hremain : u.remain = s.remain - 1#3 := congrArg State.remain hframe
    have hphase := congrArg State.xstate hframe
    have hresult := congrArg State.result hframe
    simp only [State.accumulate_xstate, State.accumulate_result] at hphase hresult
    rw [List.zipIdx_cons, List.map_cons, List.foldl_cons, ← hacc]
    have hleft : (s.remain - 1#3).toNat = blocks.length := toNat_sub_one howed
    cases blocks with
    | nil =>
      have last : s.remain - 1#3 = 0#3 := BitVec.eq_of_toNat_eq hleft
      rw [if_pos last] at hphase hresult
      exact ⟨u, hu, hdrained, congrArg State.inputs hframe, hphase, hlfsr, by rw [hresult, hacc, byte]; rfl⟩
    | cons q blocks =>
      have more : s.remain - 1#3 ≠ 0#3 := fun h0 => by simp [h0] at hleft
      rw [if_neg more] at hphase
      obtain ⟨t, ht, hdone⟩ := ih hdrained hphase hlfsr (hremain ▸ hleft)
        (fun p' hp' => hshape p' (List.mem_cons_of_mem p hp')) (congrArg State.inputs hframe)
      refine ⟨t, ?_, ?_⟩
      · rw [List.length_cons, Nat.mul_succ, Nat.add_comm, runSteps_add _ hu, ht]
      · rwa [List.length_cons (a := p), Nat.add_comm _ 1, ← Nat.add_assoc]

/-! ## The accumulator (R81) -/

/-- R81: the shift is exact while the highest byte of `ACC` is empty. -/
theorem toNat_shiftInByte {acc : Word} (b : Byte) (h : acc.toNat < 2 ^ 24) :
    (shiftInByte acc b).toNat = 2 ^ 8 * acc.toNat + b.toNat := by
  have shifted : (acc <<< 8).toNat = acc.toNat <<< 8 := by
    rw [BitVec.toNat_shiftLeft, Nat.shiftLeft_eq, Nat.mod_eq_of_lt (by omega)]
  have byte : (b.setWidth 32).toNat = b.toNat := BitVec.toNat_setWidth_of_le (by decide)
  rw [shiftInByte, BitVec.toNat_or, shifted, byte, ← Nat.shiftLeft_add_eq_or_of_lt b.isLt, Nat.shiftLeft_eq, Nat.mul_comm]

/-- R75, R110: from IDLE an event goes on to a wait with an empty accumulator, or stays in IDLE. -/
theorem exec_from_idle {i : Instr} {s t : State} (hx : s.xstate = .idle) (h : exec i s = .next t) :
    t.xstate = .idle ∨ t.acc = 0#32 := by
  have command {f : State → State} (hf : (f s).xstate = .idle ∨ (f s).acc = 0#32) (h : acceptCommand f s = .next t) :
      t.xstate = .idle ∨ t.acc = 0#32 := by
    rw [acceptCommand_of_idle f hx] at h
    exact Host.Outcome.next.inj h ▸ hf
  cases i with
  | reset => cases h; exact .inl rfl
  | nop => exact command (.inl hx) h
  | init => exact command (.inl hx) h
  | nextByte => exact command (.inr rfl) h
  | nextInt => exact command (.inr rfl) h
  | nextLong => exact command (.inr rfl) h
  | reserved5 => exact command (.inl hx) h
  | reserved6 => exact command (.inl hx) h
  | reserved7 => exact command (.inl hx) h
  | tick c => exact .inl ((tick_xstate h).trans hx)
  | poll => cases hx.symm.trans (poll_cases h).1
  | enter => cases hx.symm.trans (enter_cases h).1
  | remove c => cases hx.symm.trans (inPhase_cases h).1

/-- R54, R114: in a busy block the only restart is RESET, which leaves it idle. -/
theorem idle_of_busy_restart {s t : State} (hx : s.xstate ≠ .idle) (hr : restarts s = true) (h : step s = .next t) :
    t.xstate = .idle := by
  rcases restarts_cases hr with hd | ⟨_, hidle⟩
  · rw [step_of_event hd] at h
    cases h
    rfl
  · exact absurd hidle hx

/-- R81: with `r + 1` bytes owed, one byte shifted in leaves room for the `r` still owed. -/
theorem shiftInByte_fits {acc : Word} (b : Byte) {r : Nat} (hr : r + 1 ≤ 4)
    (h : acc.toNat < 2 ^ (8 * (4 - (r + 1)))) : (shiftInByte acc b).toNat < 2 ^ (8 * (4 - r)) := by
  have width : 8 * (4 - r) = 8 + 8 * (4 - (r + 1)) := by omega
  have room : acc.toNat < 2 ^ 24 := Nat.lt_of_lt_of_le h (Nat.pow_le_pow_right (by decide) (by omega))
  have hb := b.isLt
  rw [toNat_shiftInByte b room, width, Nat.pow_add]
  omega

/-- R81: every step keeps the room for the bytes still owed. -/
theorem step_keeps_accFits {s t : State} (hs : Inv Config.params s) (hfits : AccFits s) (h : step s = .next t) :
    AccFits t := by
  intro ht
  by_cases hx : s.xstate = .idle
  · have hzero : t.acc = 0#32 := by
      rcases step_cases h with ⟨i, _, he⟩ | ⟨r, _, ho⟩
      · exact (exec_from_idle (by simpa using hx) he).resolve_left ht
      · cases ho
        exact absurd (by simpa using hx) ht
    rw [hzero]
    exact Nat.two_pow_pos _
  · have hr : restarts s = false := by
      by_contra hr
      exact ht (idle_of_busy_restart hx (by simpa using hr) h)
    obtain ⟨hacc, hremain⟩ := step_shiftsIn_delivery hs hx hr h
    have room := hfits hx
    rw [← hremain] at room
    have hle := hs.remain_le
    rw [← hremain] at hle
    cases hd : delivery s with
    | none =>
      rw [hd] at hacc room
      rwa [show t.acc = s.acc from hacc]
    | some b =>
      rw [hd] at hacc room hle
      rw [show t.acc = shiftInByte s.acc b from hacc]
      exact shiftInByte_fits b hle room

end Sys2Proof.Machine

/-! ## The obligations on the Extractor -/

namespace Sys2Proof.Proofs

open Sys2Proof.Machine

/-- Settles O49, by induction on the run (`run_sublist`): a step that wraps or restarts loses the queue, any other keeps
delivered, waiting and completed bytes in balance (`step_sublist`). -/
theorem deliveredBytesAreASubsequence : Obligations.DeliveredBytesAreASubsequence :=
  fun _ n hs => run_sublist n hs

/-- Settles O50, by induction on the run (`run_complete`): only a wrap or a restart loses a byte (`step_complete`). -/
theorem withoutAWrapNothingIsLost : Obligations.WithoutAWrapNothingIsLost :=
  fun _ n hs hn => run_complete n hs hn

/-- Settles O56: the wait stays `Starved`, step by step (`Starved.step`). -/
theorem extractionBlocksUntilAByteIsComplete : Obligations.ExtractionBlocksUntilAByteIsComplete := by
  intro s n hs hx h0 hreset hticks
  obtain ⟨t, ht, hstarved, hresult, hremain⟩ := Starved.run n ⟨hx, h0, hreset, hticks⟩ hs
  exact ⟨t, ht, hstarved.wait, hstarved.empty, hresult, hremain⟩

/-- Settles O28: the state after steps 1 to 6 is `State.extracted`, whose slots are `State.extracted_read`, and the exit is
`exec_remove_of_unpended` or `exec_remove_of_pended`. -/
theorem removeTakesTheFrontByte : Obligations.RemoveTakesTheFrontByte := by
  refine ⟨decode_xst_code .crit, fun s c hx hm h1 hk => ?_⟩
  have read := State.extracted_read (p := Config.params) hm hk
  have removed := State.removed_of_ready (p := Config.params) h1
  refine ⟨(s.extracted Config.params).withPend false, rfl, fun i hi hik => ?_, ?_, ?_, rfl, fun hr => ?_, fun hr => ?_,
    fun hp => ?_, fun hp ha => ?_⟩
  · have below : i ≠ Config.poolSize - 1 := by
      have := two_le_poolSize
      omega
    exact (read i).trans ((if_neg hik).trans (if_neg below))
  · exact (read _).trans (if_pos rfl)
  · exact (read _).trans (by rw [if_pos (show Config.poolSize - 1 = Config.params.poolSize - 1 from rfl), ite_self])
  · exact State.extracted_of_last Config.params hr
  · have more : s.remain - 1#3 ≠ 0#3 := by bv_omega
    simp [State.extracted, more]
  · have unpended : (s.extracted Config.params).withPend false = s.extracted Config.params := by
      rw [← hp]
      rfl
    rw [exec_remove_of_unpended c hx hk hp, removed, unpended]
  · obtain ⟨u, hu, htick, _⟩ := exec_remove_of_pended c hx hk hp ha
    exact ⟨u, hu, removed ▸ htick⟩

/-- Settles O30: the removal is the same with and without a tick pending (`State.removed_withPend`), and
`exec_remove_of_pended` serves the tick on what it produced. -/
theorem exitServesThePendedTick : Obligations.ExitServesThePendedTick := by
  intro s c hs hx hp
  obtain ⟨u, hu, htick, hdone⟩ := exec_remove_of_pended c hx hs.byteCur_lt hp (hs.pend_armed hp)
  refine ⟨(s.removed Config.params).withPend false, u, ?_, rfl, htick, hu, hdone⟩
  rw [← State.removed_withPend]
  exact exec_remove_of_unpended (s := s.withPend false) c hx hs.byteCur_lt rfl

/-- Settles O31: slot `k-1` of the new pool is slot `k` of the old one (`State.extracted_read`). -/
theorem partialByteSurvivesARemoval : Obligations.PartialByteSurvivesARemoval := by
  intro s c hx hp hm h1 hk
  refine ⟨_, exec_remove_of_unpended c hx hk hp, ?_⟩
  rw [State.removed_of_ready h1]
  refine ⟨rfl, rfl, ?_⟩
  have hlast : s.byteCur - 1 ≠ Config.params.poolSize - 1 := by
    have : s.byteCur < Config.params.poolSize := hk
    omega
  calc (s.extracted Config.params).pool.read (s.byteCur - 1) = s.pool.read (s.byteCur - 1 + 1) := by
        rw [State.extracted_read (p := Config.params) hm hk, if_neg (by omega), if_neg hlast]
    _ = s.pool.read s.byteCur := by rw [Nat.sub_add_cancel h1]

/-- Settles O35: the command issues for one byte, and the extraction (`run_of_extraction`) takes the front of the queue. -/
theorem nextByteDeliversTheFrontByte : Obligations.NextByteDeliversTheFrontByte := by
  intro s b q x y z rest hs hx hq hin
  have issue : step s = .next ((s.afterInput (microSteps [x, y, z] ++ rest)).issue 1#3) :=
    (step_of_input_event (i := .nextByte) hin rfl).trans (acceptCommand_of_idle _ hx)
  obtain ⟨u, hu, hinv⟩ := step_keeps_inv hs
  obtain rfl := Host.Outcome.next.inj (issue.symm.trans hu)
  have h1 : 1 ≤ s.byteCur := by rw [← State.length_view_complete, hq]; simp
  have hrun := (runSteps_succ 3 issue).trans (run_of_extraction hinv rfl h1 rfl rfl)
  have hview := view_extracted hs.pool_wf h1 hs.byteCur_lt
  obtain ⟨hidle, hresult⟩ := State.extracted_of_last Config.params
    (s := ((s.afterInput (microSteps [x, y, z] ++ rest)).issue 1#3).afterInput rest) rfl
  refine ⟨_, hrun, ?_, hidle, rfl, ?_⟩
  · rw [hresult, ← State.read_front hq, ← shiftInByte_zero]
    rfl
  · refine hview.trans ?_
    simp [View.dropFront, hq]

/-- Settles O36: `run_of_extraction`, with the state after steps 1 to 6 written out. -/
theorem pollEnterRemoveIsOneExtract : Obligations.PollEnterRemoveIsOneExtract :=
  fun _ _ _ _ _ hs hx h1 hin => run_of_extraction hs hx h1 rfl hin

/-- Settles O37: eight ticks form the byte (`run_fills_byte`) of LFSR bits that are bits of the start value
(`mixedBits_of_length_le`), and NEXTBYTE delivers it (O35). -/
theorem eightFoldsThenNextByteDelivers : Obligations.EightFoldsThenNextByteDelivers := by
  intro s draws ds rest hs ha hx hk hb h8 h3 hin
  obtain ⟨x, y, z, rfl⟩ := List.length_eq_three.1 h3
  obtain ⟨u, hu, hinv, hframe, hview⟩ := run_fills_byte ⟨hs, ha, hk, hb⟩ (by simp [hx]) h8 hin
  have hidle : u.xstate = .idle := (congrArg State.xstate hframe).trans hx
  obtain ⟨t, ht, hresult, hx', hrest, hview'⟩ := nextByteDeliversTheFrontByte u _ [] x y z rest hinv hidle
    (congrArg View.complete hview) (congrArg State.inputs hframe)
  refine ⟨t, (runSteps_add 4 hu).trans ht, hrest, hx', ?_, ?_⟩
  · rw [hresult, mixedBits_of_length_le (by omega), h8]
  · rw [hview', hview]

/-- Settles O41: a command starts from an empty accumulator (`exec_from_idle`), and a byte shifted in is one owed no more
(`step_keeps_accFits`). -/
theorem everyStepKeepsTheAccumulatorInItsBytes : Obligations.EveryStepKeepsTheAccumulatorInItsBytes :=
  fun _ _ hs hfits h => step_keeps_accFits hs hfits h

/-- Settles O54: the command issues for as many bytes as there are blocks, and `run_of_blocks` delivers them. -/
theorem eachCommandCompletesWithEightFoldsPerByte : Obligations.EachCommandCompletesWithEightFoldsPerByte := by
  intro s w n blocks rest hs ha hx hk hb hw hlen hshape hin
  obtain ⟨i, m, hd, hi, hm⟩ : ∃ i m, decode (.cmd w) = .ok i ∧ (∀ u, exec i u = acceptCommand (State.issue m) u) ∧
      m.toNat = n := by
    rcases hw with ⟨rfl, rfl⟩ | ⟨rfl, rfl⟩ | ⟨rfl, rfl⟩
    · exact ⟨.nextByte, 1#3, rfl, fun _ => rfl, rfl⟩
    · exact ⟨.nextInt, 2#3, rfl, fun _ => rfl, rfl⟩
    · exact ⟨.nextLong, 4#3, rfl, fun _ => rfl, rfl⟩
  have issue := (step_of_input_event hin hd).trans ((hi _).trans (acceptCommand_of_idle _ hx))
  have hinv := run_keeps_inv 1 hs (runSteps_succ 0 issue)
  obtain ⟨t, ht, hdrained, hrest, hidle, hlfsr, hresult⟩ := run_of_blocks (k := 0) s.lfsr blocks rest ⟨hinv, ha, hk, hb⟩
    rfl rfl (hm.trans hlen.symm) hshape rfl
  rw [hlen] at ht
  rw [Nat.zero_add, hlen] at hlfsr
  refine ⟨t, ?_, hrest, hidle, hdrained.view, hlfsr, hresult⟩
  rw [Nat.add_comm, runSteps_succ _ issue, ht]

/-- Settles O14: the codes are read bit by bit, and in IDLE a command takes its effect (`acceptCommand_of_idle`). -/
theorem issueLoadsRemainAndWaits : Obligations.IssueLoadsRemainAndWaits :=
  ⟨⟨rfl, rfl, rfl⟩, fun _ hx => ⟨acceptCommand_of_idle _ hx, acceptCommand_of_idle _ hx, acceptCommand_of_idle _ hx,
    fun _ => rfl⟩⟩

/-- Settles O26: the two branches of POLL. -/
theorem pollGrantsWhenAByteIsReady : Obligations.PollGrantsWhenAByteIsReady :=
  ⟨decode_xst_code .wait, fun _ hx => ⟨exec_poll_of_ready hx, exec_poll_of_empty hx⟩⟩

/-- Settles O27: ENTER looks at the phase only, and in CRIT a TICK of an armed block is held (`exec_tick_of_crit`). -/
theorem enterTakesTheSection : Obligations.EnterTakesTheSection :=
  ⟨decode_xst_code .grant, fun s hx => ⟨exec_enter_of_grant hx, rfl,
    fun c ha => exec_tick_of_crit (s := s.toPhase .crit) c ha rfl⟩⟩

/-- Settles O29: with no byte ready REMOVE hands its exit the state with the phase set to WAIT (`State.removed_of_empty`). -/
theorem removeAtZeroGoesBackToTheWait : Obligations.RemoveAtZeroGoesBackToTheWait := by
  intro s c hx h0
  have hk : s.byteCur < Config.poolSize := h0 ▸ Nat.zero_lt_of_lt two_le_poolSize
  have removed := State.removed_of_empty (p := Config.params) h0
  refine ⟨fun hp => ?_, fun hp ha => ?_⟩
  · rw [exec_remove_of_unpended c hx hk hp, removed]
    rfl
  · obtain ⟨u, hu, htick, _⟩ := exec_remove_of_pended c hx hk hp ha
    rw [removed] at htick
    exact ⟨u, hu, htick⟩

/-- Settles O32: the shift is `toNat_shiftInByte`. -/
theorem accumulatorShiftLosesNoBit : Obligations.AccumulatorShiftLosesNoBit :=
  fun _ b h => toNat_shiftInByte b h

end Sys2Proof.Proofs

/-! ## The wait of an extraction issued before INIT -/

namespace Sys2Proof.Machine

/-- R49: without a RESET among the inputs the next event is none. -/
theorem ne_reset_of_noReset {s : State} {i : Instr} (h : s.inputs.all (fun x => !raisesReset x) = true)
    (hi : decode (fetch s).1 = .ok i) : i ≠ .reset := by
  rintro rfl
  obtain ⟨x, rest, hin, hx⟩ := inputs_of_port_event hi (by simp [Instr.format])
  simp [hin, raisesReset_of_decode hx] at h

/-- Fetching lists no further RESET. -/
theorem noReset_fetched {s : State} (h : s.inputs.all (fun x => !raisesReset x) = true) :
    (fetch s).2.inputs.all (fun x => !raisesReset x) = true := by
  rw [fetch_snd_inputs, List.all_eq_true]
  exact fun x hx => List.all_eq_true.1 h x (List.mem_of_mem_tail hx)

/-- A command waits in an unarmed block that meets the invariants, and no RESET is listed (R94, R120). -/
structure UnarmedWait (s : State) : Prop where
  inv : Inv Config.params s
  wait : s.xstate = .wait
  unarmed : s.armed = false
  noReset : s.inputs.all (fun x => !raisesReset x) = true

namespace UnarmedWait

variable {s : State}

theorem fetched (h : UnarmedWait s) : UnarmedWait (fetch s).2 where
  inv := h.inv.fetched
  wait := (fetch_snd_xstate s).trans h.wait
  unarmed := (fetch_snd_armed s).trans h.unarmed
  noReset := noReset_fetched h.noReset

/-- R61, R76, R94: INIT is turned away, no tick folds, so no byte gets ready, and no event has an effect. -/
theorem exec {i : Instr} {t : State} (h : UnarmedWait s) (hi : i ≠ .reset) (ht : exec i s = .next t) : t = s := by
  obtain ⟨empty, _⟩ := h.inv.unarmed h.unarmed
  rcases exec_of_empty_wait h.wait empty hi ht with rfl | ⟨c, rfl, _⟩
  · rfl
  · exact Host.Outcome.next.inj (ht.symm.trans (exec_tick_of_unarmed c h.unarmed))

/-- R94: a step takes the next input, or a free draw, and nothing more. -/
theorem step (h : UnarmedWait s) : step s = .next (fetch s).2 := by
  obtain ⟨t, ht, _⟩ := step_keeps_inv h.inv
  rw [ht]
  rcases step_cases ht with ⟨i, hi, he⟩ | ⟨r, _, ho⟩
  · rw [h.fetched.exec (ne_reset_of_noReset h.noReset hi) he]
  · exact ho

/-- R94, R120: the wait goes on for any number of steps. -/
theorem run (n : Nat) (h : UnarmedWait s) :
    ∃ t, runSteps (n + 1) s = .next t ∧ UnarmedWait t ∧ t.result = none ∧ t.remain = s.remain := by
  induction n generalizing s with
  | zero => exact ⟨_, runSteps_succ 0 h.step, h.fetched, fetch_snd_result s, fetch_snd_remain s⟩
  | succ n ih =>
    obtain ⟨t, ht, hwait, hresult, hremain⟩ := ih h.fetched
    exact ⟨t, (runSteps_succ (n + 1) h.step).trans ht, hwait, hresult, hremain.trans (fetch_snd_remain s)⟩

end UnarmedWait

end Sys2Proof.Machine

/-! ## The obligations on initialization -/

namespace Sys2Proof.Proofs

open Sys2Proof.Machine

/-- Settles O55: an unarmed wait is still one after any number of steps (`UnarmedWait.run`). -/
theorem extractionBeforeInitWaitsForEver : Obligations.ExtractionBeforeInitWaitsForEver := by
  intro s n hs ha hx hreset
  obtain ⟨t, ht, hwait, hresult, hremain⟩ := UnarmedWait.run n ⟨hs, hx, ha, hreset⟩
  exact ⟨t, ht, hwait.wait, hwait.unarmed, hresult, hremain⟩

/-- Settles O10: in IDLE the command takes its effect (`acceptCommand_of_idle`), and a pool with no slot listed reads 0x00
everywhere. -/
theorem initBringsTheStartingCondition : Obligations.InitBringsTheStartingCondition := by
  have init {s : State} (hx : s.xstate = .idle) : exec .init s = .next (s.initialised Config.params) :=
    acceptCommand_of_idle _ hx
  refine ⟨rfl, fun s hx => ⟨_, init hx, rfl, Memory.read_nil⟩, fun s rest hx hin => ?_⟩
  have accepted : exec .init (s.afterInput rest) = .next ((s.afterInput rest).initialised Config.params) := init hx
  exact ⟨_, (step_of_input_event hin rfl).trans accepted, accepted, rfl⟩

/-- Settles O11: NOP and the reserved codes run as a command with no effect (`acceptCommand_id`). -/
theorem nopChangesNothing : Obligations.NopChangesNothing :=
  ⟨rfl, fun s _ => ⟨acceptCommand_id s, rfl, rfl, rfl⟩,
    fun s rest _ hin => (step_of_input_event (i := .nop) hin rfl).trans (acceptCommand_id (s.afterInput rest))⟩

end Sys2Proof.Proofs

/-! ## The end of a critical section -/

namespace Sys2Proof.Machine

theorem State.removed_tickPend (p : Params) (s : State) : (s.removed p).tickPend = s.tickPend := by
  rw [State.removed_frame]

theorem State.removed_armed (p : Params) (s : State) : (s.removed p).armed = s.armed := by
  rw [State.removed_frame]

theorem State.removed_lfsr (p : Params) (s : State) : (s.removed p).lfsr = s.lfsr := by
  rw [State.removed_frame]

/-- R61, R63: a TICK of an armed block outside CRIT steps the LFSR once. -/
theorem exec_tick_lfsr {c : Bit} {s t : State} (ha : s.armed = true) (hx : s.xstate ≠ .crit)
    (h : exec (.tick c) s = .next t) : t.lfsr = lfsrStep s.lfsr := by
  rw [exec_tick_of_folds c ((State.tickFate_folds_iff s).2 ⟨ha, hx⟩), outcome_next_iff] at h
  rw [(fold_cases h).2]
  rfl

end Sys2Proof.Machine

/-! ## The obligations on exceptions -/

namespace Sys2Proof.Proofs

open Sys2Proof.Machine

/-- Settles O23: CRIT holds the first tick and the second writes what is there already (`exec_tick_of_crit`); the exit serves
the one tick on the state that the removal produced (`exec_remove_of_pended`), whose LFSR the removal left alone. -/
theorem ticksInsideTheSectionMerge : Obligations.TicksInsideTheSectionMerge := by
  intro s c d e hs ha hx
  obtain ⟨u, hu, htick, hdone⟩ := exec_remove_of_pended (s := s.withPend true) e hx hs.byteCur_lt rfl ha
  have armed : ((s.withPend true).removed Config.params).armed = true := (State.removed_armed _ _).trans ha
  have outside := State.removed_xstate_ne_crit Config.params (s.withPend true)
  have folded := exec_tick_lfsr (s := ((s.withPend true).removed Config.params).withPend false) armed outside htick
  refine ⟨s.withPend true, u, exec_tick_of_crit c ha hx, rfl, ?_, hu, hdone, ?_⟩
  · exact exec_tick_of_crit (s := s.withPend true) d ha hx
  · rw [folded, State.withPend_lfsr, State.removed_lfsr, State.withPend_lfsr]

/-- Settles O40: `exec_keeps_inv` splits the events and says of the next state more than this claim asks. -/
theorem enabledEventsAreTotal : Obligations.EnabledEventsAreTotal := by
  intro s i hs hi
  obtain ⟨t, ht, _⟩ := exec_keeps_inv hs hi
  exact ⟨t, ht⟩

/-- Settles O43: the removal leaves CRIT (`State.removed_xstate_ne_crit`); a pended tick is then served, and a tick does not
touch the phase. -/
theorem everySectionEnds : Obligations.EverySectionEnds := by
  intro s c hs hx
  have left := State.removed_xstate_ne_crit Config.params s
  cases hp : s.tickPend with
  | false =>
    exact ⟨_, exec_remove_of_unpended c hx hs.byteCur_lt hp, left, (State.removed_tickPend _ s).trans hp⟩
  | true =>
    obtain ⟨u, hu, htick, hdone⟩ := exec_remove_of_pended c hx hs.byteCur_lt hp (hs.pend_armed hp)
    exact ⟨u, hu, (tick_xstate htick).trans_ne left, hdone⟩

end Sys2Proof.Proofs

/-! ## A run that is over, and how a command is left (R130) -/

namespace Sys2Proof.Machine

/-- R50, R81: a REMOVE that ends its command emits the final `ACC`. -/
theorem remove_to_idle {p : Params} {c : Bit} {s t : State} (h : remove p c s = .ok t) (ht : t.xstate = .idle) :
    t.result = some t.acc := by
  rcases remove_cases h with ⟨_, _, he⟩ | ⟨_, he⟩
  · rw [exitSection_frame he] at ht ⊢
    by_cases h0 : s.remain - 1#3 = 0#3
    · simp [h0]
    · simp [h0] at ht
  · rw [exitSection_frame he] at ht
    cases ht

/-- R54, R76, R77, R110: from a busy state only RESET and the last REMOVE lead to IDLE. -/
theorem exec_to_idle {i : Instr} {s t : State} (hx : s.xstate ≠ .idle) (h : exec i s = .next t) (ht : t.xstate = .idle) :
    i = .reset ∨ t.result = some t.acc := by
  have command (hi : i.format = .cmd) : False := by
    rw [exec_command_busy hi hx] at h
    cases h
    exact hx ht
  cases i with
  | reset => exact .inl rfl
  | nop => exact (command rfl).elim
  | init => exact (command rfl).elim
  | nextByte => exact (command rfl).elim
  | nextInt => exact (command rfl).elim
  | nextLong => exact (command rfl).elim
  | reserved5 => exact (command rfl).elim
  | reserved6 => exact (command rfl).elim
  | reserved7 => exact (command rfl).elim
  | tick c => exact absurd ((tick_xstate h).symm.trans ht) hx
  | poll =>
    rw [(poll_cases h).2, State.polled_eq, State.toPhase_xstate] at ht
    split at ht
    · cases ht
    · exact absurd ht hx
  | enter =>
    rw [(enter_cases h).2] at ht
    cases ht
  | remove c => exact .inr (remove_to_idle (inPhase_cases h).2 ht)

/-- R130: a step that leaves a command for IDLE is RESET, or emits the RESULT. -/
theorem step_to_idle {s t : State} (hx : s.xstate ≠ .idle) (h : step s = .next t) (ht : t.xstate = .idle) :
    decode (fetch s).1 = .ok .reset ∨ t.result = some t.acc := by
  rcases step_cases h with ⟨i, hi, he⟩ | ⟨r, _, ho⟩
  · exact (exec_to_idle (by simpa using hx) he ht).imp_left fun hreset : i = .reset => hreset ▸ hi
  · cases ho
    exact absurd (by simpa using ht) hx

/-- R54, R56, R130: a block that is over meets no event but RESET and TICK. -/
theorem event_of_over {s : State} {i : Instr} (h : s.over = true) (hi : decode (fetch s).1 = .ok i) :
    i = .reset ∨ ∃ c, i = .tick c := by
  obtain ⟨hidle, hcommands⟩ := (State.over_iff s).1 h
  have command (hf : i.format = .cmd) : False := by
    obtain ⟨x, rest, hin, hx⟩ := inputs_of_port_event hi (by simp [hf])
    have hword := (format_of_decode hx).symm.trans hf
    cases x with
    | cmd w => simp [hin, presentsCommand] at hcommands
    | rst w => cases hword
    | evt w => cases hword
    | micro c => cases hword
  have microStep (hf : i.format = .xst) : enabled i (fetch s).2 = true := enabled_of_fetched hi hf
  cases i with
  | reset => exact .inl rfl
  | tick c => exact .inr ⟨c, rfl⟩
  | nop => exact (command rfl).elim
  | init => exact (command rfl).elim
  | nextByte => exact (command rfl).elim
  | nextInt => exact (command rfl).elim
  | nextLong => exact (command rfl).elim
  | reserved5 => exact (command rfl).elim
  | reserved6 => exact (command rfl).elim
  | reserved7 => exact (command rfl).elim
  | poll => simpa [enabled, hidle] using microStep rfl
  | enter => simpa [enabled, hidle] using microStep rfl
  | remove c => simpa [enabled, hidle] using microStep rfl

/-- Taking an input lists no further command. -/
theorem over_fetched {s : State} (h : s.over = true) : (fetch s).2.over = true := by
  obtain ⟨hidle, hcommands⟩ := (State.over_iff s).1 h
  refine (State.over_iff _).2 ⟨(fetch_snd_xstate s).trans hidle, ?_⟩
  rw [fetch_snd_inputs, List.all_eq_true]
  exact fun x hx => List.all_eq_true.1 hcommands x (List.mem_of_mem_tail hx)

/-- R130: a run that is over stays over, and emits no RESULT. -/
theorem step_keeps_over {s t : State} (hs : s.over = true) (h : step s = .next t) : t.over = true ∧ t.result = none := by
  have fetched := over_fetched hs
  obtain ⟨hidle, hcommands⟩ := (State.over_iff _).1 fetched
  rcases step_cases h with ⟨i, hi, he⟩ | ⟨r, _, ho⟩
  · rcases event_of_over hs hi with rfl | ⟨c, rfl⟩
    · cases he
      exact ⟨(State.over_iff _).2 ⟨rfl, hcommands⟩, fetch_snd_result s⟩
    · rw [tick_frame ((outcome_next_iff _ _).1 he)]
      exact ⟨(State.over_iff _).2 ⟨hidle, hcommands⟩, fetch_snd_result s⟩
  · cases ho
    exact ⟨fetched, fetch_snd_result s⟩

/-- R130: for any number of steps, with any number of ticks. -/
theorem run_keeps_over (n : Nat) {s : State} (hs : Inv Config.params s) (h : s.over = true) :
    ∃ t, runSteps (n + 1) s = .next t ∧ t.over = true ∧ t.result = none := by
  induction n generalizing s with
  | zero =>
    obtain ⟨t, ht, _⟩ := step_keeps_inv hs
    exact ⟨t, runSteps_succ 0 ht, step_keeps_over h ht⟩
  | succ n ih =>
    obtain ⟨u, hu, hinv⟩ := step_keeps_inv hs
    obtain ⟨t, ht, hover⟩ := ih hinv (step_keeps_over h hu).1
    exact ⟨t, (runSteps_succ (n + 1) hu).trans ht, hover⟩

/-! ## The runs of an environment that meets its duties (R131) -/

theorem move_of_duty {x : Input} {s : State} (h : mayPresent s x = true) :
    move x s = step { s with inputs := [x] } := if_pos h

theorem move_of_no_duty {x : Input} {s : State} (h : mayPresent s x = false) :
    move x s = .refused .dutyBroken := by simp [move, h]

/-- The invariants speak of the nine registers, not of what is presented. -/
theorem Inv.presented {p : Params} {s : State} (hs : Inv p s) (x : Input) : Inv p { s with inputs := [x] } :=
  { hs with }

/-- R98, R131: an interaction that breaks no duty answers what `step` answers, a next state that meets the invariants. -/
theorem move_keeps_inv {x : Input} {s : State} (hs : Inv Config.params s) (hx : mayPresent s x = true) :
    ∃ t, move x s = .next t ∧ step { s with inputs := [x] } = .next t ∧ Inv Config.params t := by
  obtain ⟨t, ht, hinv⟩ := step_keeps_inv (hs.presented x)
  exact ⟨t, (move_of_duty hx).trans ht, ht, hinv⟩

/-- R131: an environment that breaks no duty goes on for ever. -/
theorem after_keeps_inv {env : Environment} {s : State} (hs : Inv Config.params s) (henv : Dutiful env s) (n : Nat) :
    ∃ t, after env n s = .next t ∧ Inv Config.params t := by
  induction n with
  | zero => exact ⟨s, rfl, hs⟩
  | succ n ih =>
    obtain ⟨t, ht, hinv⟩ := ih
    obtain ⟨u, hu, _, hinv'⟩ := move_keeps_inv hinv (henv n t ht)
    exact ⟨u, (after_succ ht).trans hu, hinv'⟩

/-! ## The end of an extraction under fair ticks (R99, R111, R131) -/

/-- How an extraction may end at a state and the input presented there: the RESULT was emitted, a RESET abandons it, or a
wrap falls in it (R81, R99, R114). -/
def Concludes (x : Input) (t : State) : Prop :=
  (t.xstate = .idle ∧ t.result = some t.acc) ∨ raisesReset x = true ∨
    (t.xstate ≠ .idle ∧ wraps { t with inputs := [x] } = true)

/-- An armed block that meets the invariants, with a command in progress. -/
structure Extracting (s : State) : Prop where
  inv : Inv Config.params s
  armed : s.armed = true
  busy : s.xstate ≠ .idle

/-- How far the pool and the command are filled: the position of the cursors (R66), and eight for every byte of the largest
command that is not owed. A removal moves eight from the first to the second, so without a wrap folds alone count. -/
def State.progress (s : State) : Nat := 8 * (s.byteCur + (4 - s.remain.toNat)) + s.bitCur.toNat

/-- R15, R28: the progress is bounded by the capacity. -/
theorem State.progress_lt {s : State} (hs : Inv Config.params s) : s.progress < 8 * (Config.poolSize + 4) := by
  have hk : s.byteCur < Config.poolSize := hs.byteCur_lt
  have hb := s.bitCur.isLt
  unfold State.progress
  omega

/-- R45, R66, R81: in a busy block without RESET and wrap the progress is the number of folds. -/
theorem step_progress {s t : State} (hs : Inv Config.params s) (hx : s.xstate ≠ .idle) (hr : restarts s = false)
    (hw : wraps s = false) (h : step s = .next t) : t.progress = s.progress + (foldBit s).toList.length := by
  have bits := congrArg List.length (step_bits hs hr h)
  have bytes := congrArg List.length ((step_complete hs hr h).resolve_right (by simp [hw]))
  have owed := (step_shiftsIn_delivery hs hx hr h).2
  have hle := hs.remain_le
  have eight (l : List Byte) : (l.flatMap bitsOfByte).length = 8 * l.length := by
    simp [List.length_flatMap, bitsOfByte, Nat.mul_comm]
  simp only [List.length_append, State.length_view_part, State.length_view_complete, eight] at bits bytes
  unfold State.progress
  omega

/-- R53: the input that raises a TICK is its word. -/
theorem decode_of_raisesTick {x : Input} (h : raisesTick x = true) (p : XState) :
    ∃ c, decode (inputWord p x) = .ok (.tick c) := by
  have only : ∀ w : BitVec 2, raisesTick (.evt w) = true → ∃ c, decode (.evt w) = .ok (.tick c) := by decide
  cases x with
  | evt w => exact only w h
  | rst w => cases h
  | cmd w => cases h
  | micro c => cases h

/-- R55, R75: the extractions are commands. -/
theorem format_of_extracts {i : Instr} (h : Instr.extracts i = true) : i.format = .cmd := by
  cases i with
  | nextByte => rfl
  | nextInt => rfl
  | nextLong => rfl
  | reset => cases h
  | nop => cases h
  | init => cases h
  | reserved5 => cases h
  | reserved6 => cases h
  | reserved7 => cases h
  | tick c => cases h
  | poll => cases h
  | enter => cases h
  | remove c => cases h

/-- R75: only an extraction takes the block out of IDLE. -/
theorem extracts_of_leaves_idle {i : Instr} {s t : State} (hx : s.xstate = .idle) (h : exec i s = .next t)
    (ht : t.xstate ≠ .idle) : Instr.extracts i = true := by
  have command {f : State → State} (hf : (f s).xstate = s.xstate) (h : acceptCommand f s = .next t) : False := by
    rw [acceptCommand_of_idle f hx] at h
    cases h
    exact ht (hf.trans hx)
  cases i with
  | nextByte => rfl
  | nextInt => rfl
  | nextLong => rfl
  | reset => cases h; exact absurd rfl ht
  | nop => exact (command rfl h).elim
  | init => exact (command rfl h).elim
  | reserved5 => exact (command rfl h).elim
  | reserved6 => exact (command rfl h).elim
  | reserved7 => exact (command rfl h).elim
  | tick c => exact absurd ((tick_xstate h).trans hx) ht
  | poll => cases hx.symm.trans (poll_cases h).1
  | enter => cases hx.symm.trans (enter_cases h).1
  | remove c => cases hx.symm.trans (inPhase_cases h).1

/-- R19: a step that is no RESET leaves an armed block armed. -/
theorem step_keeps_armed {s t : State} (ha : s.armed = true) (hreset : decode (fetch s).1 ≠ .ok .reset)
    (h : step s = .next t) : t.armed = true := by
  rcases step_cases h with ⟨i, hi, he⟩ | ⟨r, _, ho⟩
  · by_contra hunarmed
    have harmed : (fetch s).2.armed = true := (fetch_snd_armed s).trans ha
    have := (Proofs.onlyInitArmsAndOnlyResetDisarms i _ t he).1 harmed (by simpa using hunarmed)
    exact hreset (this ▸ hi)
  · cases ho
    exact (fetch_snd_armed s).trans ha

/-- R131: an extraction that breaks no duty finds the block armed. -/
theorem armed_of_mayPresent {x : Input} {s : State} {i : Instr} (hx : mayPresent s x = true)
    (hi : decode (inputWord s.xstate x) = .ok i) (he : Instr.extracts i = true) : s.armed = true := by
  have hword := (format_of_decode hi).symm.trans (format_of_extracts he)
  cases x with
  | cmd w =>
    have hd : decode (.cmd w) = .ok i := hi
    simp only [mayPresent, hd, he, Bool.not_true, Bool.or_false, Bool.and_eq_true] at hx
    exact hx.2
  | rst w => cases hword
  | evt w => cases hword
  | micro c => cases hword

/-- R94, R131: INIT before the first extraction, so a command in progress finds the block armed, after every interaction
that breaks no duty. -/
theorem step_keeps_armed_if_busy {x : Input} {s t : State} (ha : s.xstate ≠ .idle → s.armed = true)
    (hx : mayPresent s x = true) (h : step { s with inputs := [x] } = .next t) (ht : t.xstate ≠ .idle) :
    t.armed = true := by
  have hreset : decode (fetch { s with inputs := [x] }).1 ≠ .ok .reset := by
    intro hd
    rw [step_of_event hd] at h
    cases h
    exact ht rfl
  have harmed : s.armed = true := by
    by_cases hidle : s.xstate = .idle
    · rcases step_cases h with ⟨i, hi, he⟩ | ⟨r, _, ho⟩
      · exact armed_of_mayPresent hx hi
          (extracts_of_leaves_idle (s := (fetch { s with inputs := [x] }).2) hidle he ht)
      · cases ho
        exact absurd hidle ht
    · exact ha hidle
  exact step_keeps_armed (s := { s with inputs := [x] }) harmed hreset h

/-- R94, R131: a command in progress finds the block armed in every state of a run that breaks no duty. -/
theorem after_armed {env : Environment} {s : State} (hs : Inv Config.params s) (ha : s.xstate ≠ .idle → s.armed = true)
    (henv : Dutiful env s) (n : Nat) :
    ∃ t, after env n s = .next t ∧ Inv Config.params t ∧ (t.xstate ≠ .idle → t.armed = true) := by
  induction n with
  | zero => exact ⟨s, rfl, hs, ha⟩
  | succ n ih =>
    obtain ⟨t, ht, hinv, harmed⟩ := ih
    obtain ⟨u, hu, hstep, hinv'⟩ := move_keeps_inv hinv (henv n t ht)
    exact ⟨u, (after_succ ht).trans hu, hinv', step_keeps_armed_if_busy harmed (henv n t ht) hstep⟩

/-- Between the two states no tick is lost: the progress has not fallen, and a tick that was pending is folded or still
pending (R104). -/
structure LosesNoTick (s t : State) : Prop where
  progress_le : s.progress ≤ t.progress
  pending : s.tickPend = true → s.progress < t.progress ∨ t.tickPend = true

theorem LosesNoTick.refl (s : State) : LosesNoTick s s := ⟨le_rfl, .inr⟩

theorem LosesNoTick.trans {s t u : State} (h : LosesNoTick s t) (h' : LosesNoTick t u) : LosesNoTick s u where
  progress_le := h.progress_le.trans h'.progress_le
  pending hp := by
    rcases h.pending hp with hlt | hp'
    · exact .inl (hlt.trans_le h'.progress_le)
    · exact (h'.pending hp').imp_left h.progress_le.trans_lt

/-- R80: with a tick pending REMOVE folds. -/
theorem remove_folds_pended {s : State} {c : Bit} (hp : s.tickPend = true) (hd : decode (fetch s).1 = .ok (.remove c)) :
    (foldBit s).isSome = true := by
  rw [foldBit_of_remove hd, if_pos hp]
  rfl

namespace Extracting

variable {s t : State}

theorem presented (h : Extracting s) (x : Input) : Extracting { s with inputs := [x] } :=
  ⟨h.inv.presented x, h.armed, h.busy⟩

/-- R54, R114: a busy block restarts by a RESET only. -/
theorem not_restarts (h : Extracting s) (hreset : decode (fetch s).1 ≠ .ok .reset) : restarts s = false := by
  refine Bool.eq_false_iff.2 fun hr => ?_
  rcases restarts_cases hr with hd | ⟨_, hidle⟩
  · exact hreset hd
  · exact h.busy hidle

/-- R81, R130: a step that is no RESET emits the RESULT and leads to IDLE, or leaves the extraction in progress. -/
theorem step_ends_or_goes_on (h : Extracting s) (hreset : decode (fetch s).1 ≠ .ok .reset) (ht : step s = .next t) :
    (t.xstate = .idle ∧ t.result = some t.acc) ∨ Extracting t := by
  by_cases hidle : t.xstate = .idle
  · exact .inl ⟨hidle, (step_to_idle h.busy ht hidle).resolve_left hreset⟩
  · obtain ⟨u, hu, hinv⟩ := step_keeps_inv h.inv
    obtain rfl := Host.Outcome.next.inj (ht.symm.trans hu)
    exact .inr ⟨hinv, step_keeps_armed h.armed hreset ht, hidle⟩

/-- R61, R103: a TICK folds, or is pending after it. -/
theorem tick_folds_or_pends {c : Bit} (h : Extracting s) (hd : decode (fetch s).1 = .ok (.tick c))
    (ht : step s = .next t) : (foldBit s).isSome = true ∨ t.tickPend = true := by
  by_cases hcrit : s.xstate = .crit
  · rw [step_of_event hd, exec_tick_of_crit c ((fetch_snd_armed s).trans h.armed) ((fetch_snd_xstate s).trans hcrit)] at ht
    cases ht
    exact .inr rfl
  · rw [foldBit_of_tick hd, if_pos ((State.tickFate_folds_iff s).2 ⟨h.armed, hcrit⟩)]
    exact .inl rfl

/-- R41, R104: a pending tick stays pending until REMOVE folds it, unless a RESET comes. -/
theorem pended_folds_or_pends (h : Extracting s) (hp : s.tickPend = true) (hreset : decode (fetch s).1 ≠ .ok .reset)
    (ht : step s = .next t) : (foldBit s).isSome = true ∨ t.tickPend = true := by
  have fetched : (fetch s).2.tickPend = true := (fetch_snd_tickPend s).trans hp
  have hcrit : (fetch s).2.xstate = .crit := (fetch_snd_xstate s).trans (h.inv.pend_crit hp)
  rcases step_cases ht with ⟨i, hi, he⟩ | ⟨r, _, ho⟩
  · by_cases hremove : ∃ c, i = .remove c
    · obtain ⟨c, rfl⟩ := hremove
      exact .inl (remove_folds_pended hp hi)
    · rcases Proofs.onlyResetAndRemoveActInsideTheSection i _ t hcrit he (fun hr => hreset (hr ▸ hi))
        fun c hc => hremove ⟨c, hc⟩ with rfl | ⟨rfl, _⟩
      · exact .inr fetched
      · exact .inr rfl
  · cases ho
    exact .inr fetched

end Extracting

section
variable {env : Environment} {s t : State} {n : Nat}

/-- The extraction ends at interaction `n` of the run or later. -/
def EndsFrom (env : Environment) (s : State) (n : Nat) : Prop :=
  ∃ m t, n ≤ m ∧ after env m s = .next t ∧ Concludes (env m) t

theorem EndsFrom.mono {m : Nat} (h : EndsFrom env s m) (hle : n ≤ m) : EndsFrom env s n := by
  obtain ⟨k, t, hk, ht, hc⟩ := h
  exact ⟨k, t, hle.trans hk, ht, hc⟩

/-- One interaction of a run: the extraction ends, or it goes on and loses no tick, the tick that comes with it included. -/
theorem endsFrom_or_interaction (henv : Dutiful env s) (ht : after env n s = .next t) (h : Extracting t) :
    EndsFrom env s n ∨ ∃ u, after env (n + 1) s = .next u ∧ Extracting u ∧ LosesNoTick t u ∧
      (raisesTick (env n) = true → t.progress < u.progress ∨ u.tickPend = true) ∧
      ((∃ c, env n = .micro c) → t.tickPend = true → t.progress < u.progress) := by
  by_cases hc : Concludes (env n) t
  · exact .inl ⟨n, t, le_rfl, ht, hc⟩
  have h' := h.presented (env n)
  have hreset : decode (inputWord t.xstate (env n)) ≠ .ok .reset := fun hd => hc (.inr (.inl (raisesReset_of_decode hd)))
  have hwrap : wraps { t with inputs := [env n] } = false :=
    Bool.eq_false_iff.2 fun hw => hc (.inr (.inr ⟨h.busy, hw⟩))
  obtain ⟨u, hmove, hstep, _⟩ := move_keeps_inv h.inv (henv n t ht)
  have hu : after env (n + 1) s = .next u := (after_succ ht).trans hmove
  have counted := step_progress h'.inv h'.busy (h'.not_restarts hreset) hwrap hstep
  obtain hend | hex := h'.step_ends_or_goes_on hreset hstep
  · exact .inl ⟨n + 1, u, Nat.le_succ n, hu, .inl hend⟩
  have folded (hf : (foldBit { t with inputs := [env n] }).isSome = true) : t.progress < u.progress := by
    obtain ⟨r, hr⟩ := Option.isSome_iff_exists.1 hf
    rw [hr] at counted
    exact counted ▸ Nat.lt_succ_self _
  refine .inr ⟨u, hu, hex, ⟨counted ▸ Nat.le_add_right _ _, fun hp => ?_⟩, fun htick => ?_, fun ⟨c, hmicro⟩ hp => ?_⟩
  · exact (h'.pended_folds_or_pends hp hreset hstep).imp_left folded
  · obtain ⟨c, hd⟩ := decode_of_raisesTick htick t.xstate
    exact (h'.tick_folds_or_pends hd hstep).imp_left folded
  · have hd : decode (inputWord t.xstate (env n)) = .ok (.remove c) := by
      rw [hmicro, h.inv.pend_crit hp]
      rfl
    exact folded (remove_folds_pended (s := { t with inputs := [env n] }) hp hd)

/-- Any number of interactions: the extraction ends, or it goes on and loses no tick. -/
theorem endsFrom_or_run (henv : Dutiful env s) (ht : after env n s = .next t) (h : Extracting t) {m : Nat} (hm : n ≤ m) :
    EndsFrom env s n ∨ ∃ u, after env m s = .next u ∧ Extracting u ∧ LosesNoTick t u := by
  induction m, hm using Nat.le_induction with
  | base => exact .inr ⟨t, ht, h, .refl t⟩
  | succ m hm ih =>
    obtain hend | ⟨u, hu, hex, hloses⟩ := ih
    · exact .inl hend
    obtain hend | ⟨v, hv, hex', hloses', _⟩ := endsFrom_or_interaction henv hu hex
    · exact .inl (hend.mono hm)
    · exact .inr ⟨v, hv, hex', hloses.trans hloses'⟩

/-- R80, R131: a tick pending is folded, because the micro-step of its section is taken. -/
theorem endsFrom_or_pended_folds (henv : Dutiful env s) (hfair : TicksFair env s) (ht : after env n s = .next t)
    (h : Extracting t) (hp : t.tickPend = true) :
    EndsFrom env s n ∨ ∃ m u, n ≤ m ∧ after env m s = .next u ∧ Extracting u ∧ t.progress < u.progress := by
  obtain ⟨m, hm, hpresented⟩ := hfair.taken n t ht ((State.busy_iff t).2 h.busy)
  obtain hend | ⟨u, hu, hex, hloses⟩ := endsFrom_or_run henv ht h hm
  · exact .inl hend
  rcases hpresented with hmicro | hreset
  · obtain hend | ⟨v, hv, hex', hloses', _, hserved⟩ := endsFrom_or_interaction henv hu hex
    · exact .inl (hend.mono hm)
    · refine .inr ⟨m + 1, v, hm.trans (Nat.le_succ m), hv, hex', ?_⟩
      rcases hloses.pending hp with hlt | hp'
      · exact hlt.trans_le hloses'.progress_le
      · exact hloses.progress_le.trans_lt (hserved hmicro hp')
  · exact .inl ⟨m, u, hm, hu, .inr (.inl hreset)⟩

/-- R61, R131: under fair ticks the extraction ends, or one more fold comes. -/
theorem endsFrom_or_folds (henv : Dutiful env s) (hfair : TicksFair env s) (ht : after env n s = .next t)
    (h : Extracting t) :
    EndsFrom env s n ∨ ∃ m u, n ≤ m ∧ after env m s = .next u ∧ Extracting u ∧ t.progress < u.progress := by
  obtain ⟨m, hm, htick⟩ := hfair.ticks n t ht h.armed
  obtain hend | ⟨u, hu, hex, hloses⟩ := endsFrom_or_run henv ht h hm
  · exact .inl hend
  have hle := hloses.progress_le
  obtain hend | ⟨v, hv, hex', hloses', hcomes, _⟩ := endsFrom_or_interaction henv hu hex
  · exact .inl (hend.mono hm)
  have hm' : n ≤ m + 1 := hm.trans (Nat.le_succ m)
  rcases hcomes htick with hlt | hp
  · exact .inr ⟨m + 1, v, hm', hv, hex', hle.trans_lt hlt⟩
  · obtain hend | ⟨k, w, hk, hw, hex'', hlt⟩ := endsFrom_or_pended_folds henv hfair hv hex' hp
    · exact .inl (hend.mono hm')
    · exact .inr ⟨k, w, hm'.trans hk, hw, hex'', (hle.trans hloses'.progress_le).trans_lt hlt⟩

/-- R99, R111: folds come for ever and the progress is bounded, so the extraction ends, by a wrap if by nothing else. -/
theorem endsFrom_of_fair (henv : Dutiful env s) (hfair : TicksFair env s) (ht : after env n s = .next t)
    (h : Extracting t) : EndsFrom env s n := by
  induction hk : 8 * (Config.poolSize + 4) - t.progress using Nat.strong_induction_on generalizing n t with
  | _ k ih =>
    obtain hend | ⟨m, u, hm, hu, hex, hlt⟩ := endsFrom_or_folds henv hfair ht h
    · exact hend
    have hbound := State.progress_lt h.inv
    exact (ih _ (by omega) hu hex rfl).mono hm

end

end Sys2Proof.Machine

/-! ## The obligations on RESET, the end of a run and the environment -/

namespace Sys2Proof.Proofs

open Sys2Proof.Machine

/-- Settles O60: without a wrap a removal only moves the progress from the pool to the command (`step_progress`), every tick
of the fair environment is folded at last, and the progress is bounded (`endsFrom_of_fair`). In a run from RESET a command in
progress finds the block armed (`after_armed`). -/
theorem fairTicksEndEveryExtraction : Obligations.FairTicksEndEveryExtraction := by
  refine ⟨fun env s hs ha hx henv hfair => ?_, fun env k s hlawful hk hx => ?_⟩
  · obtain ⟨n, t, _, ht, hend⟩ := endsFrom_of_fair henv hfair (n := 0) rfl ⟨hs, ha, hx⟩
    exact ⟨n, t, ht, hend⟩
  · obtain ⟨t, ht, hinv, harmed⟩ := after_armed resetMeetsTheInvariants (fun h => absurd rfl h) hlawful.dutiful k
    obtain rfl := Host.Outcome.next.inj (hk.symm.trans ht)
    exact endsFrom_of_fair hlawful.dutiful hlawful.fair hk ⟨hinv, harmed hx, hx⟩

/-- Settles O58: busy excludes `over`, a command is left as `step_to_idle` says, and the run is `run_keeps_over`. -/
theorem runIsOverAfterTheLastResult : Obligations.RunIsOverAfterTheLastResult := by
  refine ⟨fun s hx => ?_, fun s t hx h ht => step_to_idle hx h ht, fun s n hs h => run_keeps_over n hs h⟩
  exact Bool.eq_false_iff.2 fun hover => hx ((State.over_iff s).1 hover).1

/-- Settles O59: what a command may be is `mayPresent_cmd`, an interaction that breaks no duty is the step
(`move_keeps_inv`), and `after_keeps_inv` is the induction over the interactions. -/
theorem environmentIsRefusedOnlyForABrokenDuty : Obligations.EnvironmentIsRefusedOnlyForABrokenDuty := by
  refine ⟨fun s w hw => move_of_no_duty ?_, fun s c hx => move_of_no_duty ?_, fun s x hs hx => ?_,
    fun env s n hs henv => after_keeps_inv hs henv n⟩
  · rw [mayPresent_cmd]
    rcases hw with hbusy | hreserved | ⟨hunarmed, hextracts⟩
    · simp [hbusy]
    · simp [Nat.not_lt.2 hreserved]
    · simp [hunarmed, Nat.not_lt.2 hextracts]
  · simp [State.busy, hx]
  · have duty : mayPresent s x = true := by
      rcases hx with ⟨w, rfl⟩ | ⟨w, rfl⟩ | ⟨hbusy, c, rfl⟩ | ⟨hidle, w, rfl, hcode, harmed⟩
      · rfl
      · rfl
      · exact (State.busy_iff s).2 hbusy
      · simpa [mayPresent_cmd, hidle, hcode] using harmed
    obtain ⟨t, hmove, hstep, _⟩ := move_keeps_inv hs duty
    exact ⟨t, hmove, hstep⟩

/-- Settles O8: RESET writes every register whatever the phase, and the strobe of the event before is over when it runs. -/
theorem resetClearsEveryRegister : Obligations.ResetClearsEveryRegister :=
  ⟨rfl, fun s => ⟨s.cleared Config.params, rfl, rfl, Memory.read_nil⟩,
    fun s _ hin => step_of_input_event (s := s) (i := .reset) hin rfl⟩

end Sys2Proof.Proofs
